-- ==== Sys2Proof/Word.lean ====
section
/-! DEFINITION. The units of data the XRF engine moves (spec/00_scope.md R9, spec/20_memory.md R48): a stack value, an I/O byte, an opcode code and a slot index. -/

namespace Sys2Proof

/-- One I/O byte (R48: an input or output transfer is 8 bits). -/
abbrev Byte := BitVec 8

/-- One opcode code of the Program Store (R63, R64: one 4-bit unit). -/
abbrev Code := BitVec 4

/-- The slot index register (R29, R37: 3 bits, values 0 to 7). -/
abbrev Slot := BitVec 3

/-! A stack value, and so a jump target, is the unsigned integer R9 says it is, a `Nat`. Its width `W` is the open parameter
of R7, so the range `[0, 2^W)` is not in the type: the operators of R10 reduce modulo `2^W` by name, and `State.Inv`
(Safety.lean) says that every value the machine holds is in range (DESIGN CHOICE, log entry 2). -/

end Sys2Proof
end

