-- ==== Sys2Proof/Syntax.lean ====
section
/-! DEFINITION. The instruction set of the XRF engine: one constructor per row of spec/opcode_table.json (spec/30_encoding.md R68). No opcode has an operand field (R67), so no constructor has an argument. -/

namespace Sys2Proof

/-- The 16 opcodes of R68, in the order of their codes. -/
inductive Instr where
  /-- `0` READ (R100). -/
  | read
  /-- `1` WRITE (R102). -/
  | write
  /-- `2` DROP (R110). -/
  | drop
  /-- `3` DUP (R112). -/
  | dup
  /-- `4` SWAP (R114). -/
  | swap
  /-- `5` INC (R130). -/
  | inc
  /-- `6` DEC (R132). -/
  | dec
  /-- `7` ADD (R134). -/
  | add
  /-- `8` SKIPF (R146). -/
  | skipf
  /-- `9` ROTB (R116). -/
  | rotb
  /-- `A` RET (R148). -/
  | ret
  /-- `B` HALT (R150). -/
  | halt
  /-- `C` SKIPV (R152). -/
  | skipv
  /-- `D` SHUF (R119). -/
  | shuf
  /-- `E` ABSD (R137). -/
  | absd
  /-- `F` NOP (R155). -/
  | nop
deriving DecidableEq, Repr

/-- A program as the loader hands it over: the opcodes in text order, five to a chunk (R46, R65). -/
abbrev Program := List Instr

end Sys2Proof
end

