-- ==== Sys2Proof/Decode.lean ====
section
/-! DEFINITION. The decoder (spec/30_encoding.md R64 to R72), the reading of program text (R73 to R76), and after them the encoder. -/

namespace Sys2Proof

/-! ## From a code to an instruction -/

/-- R68, R69: the total map from the 4-bit code to the opcode. -/
def decode (c : Code) : Instr :=
  match c.toNat with
  | 0x0 => .read
  | 0x1 => .write
  | 0x2 => .drop
  | 0x3 => .dup
  | 0x4 => .swap
  | 0x5 => .inc
  | 0x6 => .dec
  | 0x7 => .add
  | 0x8 => .skipf
  | 0x9 => .rotb
  | 0xA => .ret
  | 0xB => .halt
  | 0xC => .skipv
  | 0xD => .shuf
  | 0xE => .absd
  | _ => .nop

/-- Why a byte that should hold one code does not. -/
inductive DecodeReject where
  /-- The byte has a bit set above `op[3:0]`, so it is no 4-bit code (R64). -/
  | notACode (b : Byte)
deriving DecidableEq, Repr

/-- The instruction of a byte that holds one code in its low four bits, the others 0 (DESIGN CHOICE, log entry 8:
the block itself has no bytes of program, R63). -/
def decodeByte (b : Byte) : Except DecodeReject Instr :=
  if b.toNat < 16 then .ok (decode (b.setWidth 4)) else .error (.notACode b)

/-- The decoder on a word numbered as spec/opcode_table.json numbers it: one code in bits 3 to 0, every other bit 0. -/
def decodeTableWord (nbits w : Nat) : Option Instr :=
  if w % 2 ^ nbits < 16 then some (decode (BitVec.ofNat 4 (w % 2 ^ nbits))) else none

/-! ## From program text to codes -/

/-- R74: the characters the loader skips. -/
def isBlank (c : Char) : Bool :=
  [0x20, 0x09, 0x0A, 0x0B, 0x0C, 0x0D].contains c.toNat

/-- R66, R75: the code a symbol spells; lower case and every other character spell none. -/
def symbolCode? : Char → Option Code
  | '0' => some 0x0
  | '1' => some 0x1
  | '2' => some 0x2
  | '3' => some 0x3
  | '4' => some 0x4
  | '5' => some 0x5
  | '6' => some 0x6
  | '7' => some 0x7
  | '8' => some 0x8
  | '9' => some 0x9
  | 'A' => some 0xA
  | 'B' => some 0xB
  | 'C' => some 0xC
  | 'D' => some 0xD
  | 'E' => some 0xE
  | 'F' => some 0xF
  | _ => none

/-- Why the loader rejects a text (R76); every one of these is LoadError. -/
inductive LoadReject where
  /-- A character that is neither white space nor one of the 16 symbols. -/
  | badSymbol (c : Char)
  /-- No symbol at all. -/
  | noSymbols
  /-- A symbol count that is not a multiple of 5. -/
  | notWholeChunks (count : Nat)
deriving DecidableEq, Repr

/-- The codes of the non-blank characters, in text order (R46, R76), or the first bad symbol. -/
def readSymbols : List Char → Except LoadReject (List Code)
  | [] => .ok []
  | c :: rest =>
    if isBlank c then readSymbols rest
    else match symbolCode? c with
      | none => .error (.badSymbol c)
      | some code => match readSymbols rest with
        | .error e => .error e
        | .ok codes => .ok (code :: codes)

/-- R76: the loader's acceptance test; on acceptance, the contents of `PM`. -/
def parseText (text : List Char) : Except LoadReject (List Code) :=
  match readSymbols text with
  | .error e => .error e
  | .ok codes =>
    if codes.length = 0 then .error .noSymbols
    else if codes.length % 5 = 0 then .ok codes
    else .error (.notWholeChunks codes.length)

/-! ## The encoder -/

/-- R66, R68: the code of an opcode. -/
def encode : Instr → Code
  | .read => 0x0
  | .write => 0x1
  | .drop => 0x2
  | .dup => 0x3
  | .swap => 0x4
  | .inc => 0x5
  | .dec => 0x6
  | .add => 0x7
  | .skipf => 0x8
  | .rotb => 0x9
  | .ret => 0xA
  | .halt => 0xB
  | .skipv => 0xC
  | .shuf => 0xD
  | .absd => 0xE
  | .nop => 0xF

/-- R66, R68: the symbol that spells an opcode in program text. -/
def Instr.symbol : Instr → Char
  | .read => '0'
  | .write => '1'
  | .drop => '2'
  | .dup => '3'
  | .swap => '4'
  | .inc => '5'
  | .dec => '6'
  | .add => '7'
  | .skipf => '8'
  | .rotb => '9'
  | .ret => 'A'
  | .halt => 'B'
  | .skipv => 'C'
  | .shuf => 'D'
  | .absd => 'E'
  | .nop => 'F'

end Sys2Proof
end

