-- ==== Sys2Proof/Machine/Operands.lean ====
section
/-! DEFINITION. The arithmetic operators of spec/00_scope.md R10 and the widening and narrowing of spec/20_memory.md R49 and R50. -/

namespace Sys2Proof.Machine

/-- `a +_W b` (R10): the sum modulo `2^W`. -/
def addW (w : Nat) (a b : Nat) : Nat := (a + b) % 2 ^ w

/-- `a -sat b` (R10): subtraction that clamps at 0. -/
def subSat (a b : Nat) : Nat := if b ≤ a then a - b else 0

/-- `absdiff(a, b)` (R10). -/
def absdiff (a b : Nat) : Nat := if b ≤ a then a - b else b - a

/-- `zext_W(b)` (R49): the value of an input byte. -/
def zextByte (b : Byte) : Nat := b.toNat

/-- `v[7:0]` (R50): the byte `v mod 256`. -/
def lowByte (v : Nat) : Byte := BitVec.ofNat 8 (v % 256)

end Sys2Proof.Machine
end

