-- ==== Sys2Proof/Config.lean ====
section
/-! DEFINITION. The implementation parameters of spec/00_scope.md R7 as data, with the spec's defaults, and the free values of the model. -/

namespace Sys2Proof

/-- What opcode `F` means (R7, R71, R155). -/
inductive FMode where
  /-- `F` does nothing but advance SLOT (the default). -/
  | nop
  /-- `F` raises Refused. -/
  | refuse
deriving DecidableEq, Repr

/-- What opcode `9` does on an empty stack (R7, R117). -/
inductive RotEmpty where
  /-- StackUnderflow (the default). -/
  | fault
  /-- No change. -/
  | nop
deriving DecidableEq, Repr

/-- The parameters of R7. `N` is not listed here: it is the chunk count of the loaded program (`State.chunkCount`).
The field values are R7's defaults; which values are legal is `Params.wf` (WellFormed.lean). -/
structure Params where
  /-- `W`, the width in bits of a stack value. OPEN. -/
  width        : Nat := 32
  /-- `STACK_CAP`; `none` is `INF`. OPEN. -/
  stackCap     : Option Nat := none
  /-- `F_MODE`. -/
  fMode        : FMode := .nop
  /-- `MARK_ON_RETURN`. -/
  markOnReturn : Bool := true
  /-- `ROT_EMPTY`. -/
  rotEmpty     : RotEmpty := .fault
  /-- `FAULT_EXIT`. OPEN. -/
  faultExit    : Int := 1
deriving DecidableEq, Repr

/-- Every parameter at the default R7 gives it. -/
def Params.default : Params := {}

/-- FREE VALUE (log entry 4). The random source of opcode `D` (R44, R119, R183 port RAND): choice number `i` of draw
number `n`. Nothing constrains it; `drawPerm` (Machine/Ops.lean) turns the choices of one draw into a permutation, and
every permutation is the result of some choices. -/
opaque Config.freePick : Nat → Nat → Nat

/-- FREE VALUE (log entry 5). What `FOP` records when a fault is raised while `(CUR, SLOT)` names no code of the Program
Store: R174 gives `FOP` as `PMRead(CUR, SLOT)`, and R12 defines `PMRead(k, s)` only for `k < N`. -/
opaque Config.freeFop : Nat → Nat → Code

end Sys2Proof
end

