-- ==== Sys2Proof/Machine/State.lean ====
section
/-! DEFINITION. Everything the XRF engine is (spec/10_state.md R20), as plain data, with its state after reset and the reasons a step can stop. -/

namespace Sys2Proof.Machine

/-- R36: the run status. -/
inductive Status where
  /-- No program accepted (code 0). -/
  | idle
  /-- Executing (code 1). -/
  | running
  /-- Terminal, success (code 2). -/
  | halted
  /-- Terminal, failure (code 3). -/
  | faulted
deriving DecidableEq, Repr

/-- R37, R166: the fault codes; the number 7 is reserved and no fault has it. -/
inductive FCode where
  /-- 0: no fault recorded. -/
  | none
  /-- 1: the loader refused the text. -/
  | loadError
  /-- 2: an operation needs more stack values than there are. -/
  | stackUnderflow
  /-- 3: the jump target is not below `N`. -/
  | invalidJump
  /-- 4: no memory for a push, or for the Program Store. -/
  | allocationFailure
  /-- 5: the Program Store was asked for a chunk it does not have. -/
  | outOfRange
  /-- 6: opcode `F` under `F_MODE = REFUSE`. -/
  | refused
deriving DecidableEq, Repr

/-- R37: the fault record `FREC`. -/
structure FaultRecord where
  /-- `FCODE`. -/
  fcode  : FCode
  /-- `FCHUNK`, W bits: `CUR` at the fault. -/
  fchunk : Nat
  /-- `FSLOT`: `SLOT` at the fault. -/
  fslot  : Slot
  /-- `FOP`: the faulting opcode's code. -/
  fop    : Code
  /-- `FINFO`, W bits. -/
  finfo  : Nat
deriving DecidableEq, Repr

/-- R37, R190: all zero, `FCODE = NONE`. -/
def FaultRecord.zero : FaultRecord := ⟨.none, 0, 0, 0, 0⟩

/-- The state of R20, with three fields of the model's own: `params`, `inReady` and `draws`. -/
structure State where
  /-- The parameters of R7, which no step changes (DESIGN CHOICE, log entry 1). -/
  params  : Params
  /-- `PM`: the codes of the loaded program, slot `s` of chunk `k` at index `5k + s` (R41, R46, R65). -/
  pm      : List Code
  /-- `VIS`: one visited flag per chunk (R33). -/
  vis     : List Bool
  /-- `STK`: the stack, top first (R11, R22). -/
  stk     : List Nat
  /-- `CUR`: the chunk executing (R28). -/
  cur     : Nat
  /-- `SLOT`: the next slot of chunk `CUR` (R29). -/
  slot    : Slot
  /-- `EV`: the visited flag of the chunk as read at its entry (R34). -/
  ev      : Bool
  /-- `STATUS` (R36). -/
  status  : Status
  /-- `FREC` (R37). -/
  frec    : FaultRecord
  /-- `INQ`: the input bytes not yet consumed; end-of-input follows them (R42). -/
  inq     : List Byte
  /-- `OUTQ`: the bytes emitted so far, oldest first (R42). -/
  outq    : List Byte
  /-- Whether the IN port has its next answer ready (R93, R183; DESIGN CHOICE, log entry 6). -/
  inReady : Bool
  /-- The number of draws taken from the random source so far (the model's own, log entry 4). -/
  draws   : Nat
deriving DecidableEq, Repr

/-- Why a step stops. -/
inductive Fault where
  /-- Raised by `step`, and by nothing else, in a status other than RUNNING: R81 says that no step is enabled there.
  Safe: the machine does nothing further, as the spec says (R186). -/
  | notRunning (status : Status)
deriving DecidableEq, Repr

/-- Why the model gives an instruction no meaning. -/
inductive Refusal where
  /-- Raised by an arm of `exec` whose instruction has no meaning yet; no arm does so now. Safe: the model stops. -/
  | notModelled (mnemonic : String)
deriving DecidableEq, Repr

/-- Power-up with parameters `p`, before any program is accepted (R20's reset column, R192). -/
def State.powerUp (p : Params) : State where
  params  := p
  pm      := []
  vis     := []
  stk     := []
  cur     := 0
  slot    := 0
  ev      := false
  status  := .idle
  frec    := .zero
  inq     := []
  outq    := []
  inReady := true
  draws   := 0

/-- The machine after reset with no program handed over: IDLE (R192), every item at R20's reset value, the parameters at
R7's defaults. A program comes to run by `load` (Machine/Boot.lean, R190, R194; log entry 3). -/
def State.reset : State := State.powerUp Params.default

end Sys2Proof.Machine
end

