-- ==== Sys2Proof/Machine/Ops.lean ====
section
/-! DEFINITION. The named operations over the state (spec/00_scope.md R12): field updates, reading the Program Store, raising a fault, the byte channels, the random draw, the codes and exit status the host reads. -/

namespace Sys2Proof.Machine

/-! ## Field updates -/

def State.withPm (s : State) (v : List Code) : State := { s with pm := v }
def State.withVis (s : State) (v : List Bool) : State := { s with vis := v }
def State.withStk (s : State) (v : List Nat) : State := { s with stk := v }
def State.withCur (s : State) (v : Nat) : State := { s with cur := v }
def State.withSlot (s : State) (v : Slot) : State := { s with slot := v }
def State.withEv (s : State) (v : Bool) : State := { s with ev := v }
def State.withStatus (s : State) (v : Status) : State := { s with status := v }
def State.withFrec (s : State) (v : FaultRecord) : State := { s with frec := v }
def State.withInq (s : State) (v : List Byte) : State := { s with inq := v }
def State.withOutq (s : State) (v : List Byte) : State := { s with outq := v }
def State.withInReady (s : State) (v : Bool) : State := { s with inReady := v }
def State.withDraws (s : State) (v : Nat) : State := { s with draws := v }

/-! ## The Program Store -/

/-- `N`, the source's `chunk_count()` (R7, R17, R76): the number of whole chunks of the loaded program. -/
def State.chunkCount (s : State) : Nat := s.pm.length / 5

/-- `PMRead(k, s)` (R12, R46, R65): the code at flat index `5k + s`; none where the Store has no such chunk or slot. -/
def pmRead (s : State) (k sl : Nat) : Option Code :=
  if k < s.chunkCount ∧ sl ≤ 4 then s.pm[5 * k + sl]? else none

/-- The instruction at `(CUR, SLOT)` (R83, R85). -/
def fetch (s : State) : Option Instr := (pmRead s s.cur s.slot.toNat).map decode

/-! ## Raising a fault -/

/-- The code `FOP` records (R174): that of the opcode at `(CUR, SLOT)`, 0 at end-of-chunk. -/
def faultingOp (s : State) : Code :=
  if s.slot.toNat ≤ 4 then (pmRead s s.cur s.slot.toNat).getD (Config.freeFop s.cur s.slot.toNat) else 0

/-- The record R174 writes for fault `c` with `info`. -/
def faultRecord (c : FCode) (info : Nat) (s : State) : FaultRecord :=
  { fcode := c, fchunk := s.cur, fslot := s.slot, fop := faultingOp s, finfo := info }

/-- `raise F(info)` (R174): the one entry into FAULTED. STATUS and FREC are written and nothing else (R13, R175). -/
def raise (c : FCode) (info : Nat) (s : State) : State :=
  (s.withFrec (faultRecord c info s)).withStatus .faulted

/-- The step that raises a fault is a step: it ends in the FAULTED state (R174). -/
def raised (c : FCode) (info : Nat) (s : State) : Host.Outcome State Fault Refusal :=
  .next (raise c info s)

/-! ## Ending an opcode step -/

/-- R84: the default end of an opcode step, `SLOT <- SLOT + 1`. -/
def advance (s : State) : State := s.withSlot (s.slot + 1)

/-- The end of an opcode step that leaves `stk` on the stack and advances. -/
def finish (s : State) (stk : List Nat) : Host.Outcome State Fault Refusal :=
  .next (advance (s.withStk stk))

/-! ## The stack -/

/-- Whether a push would raise AllocationFailure (R27): `depth(STK) = STACK_CAP`; never with `INF`. -/
def atCap (s : State) : Bool := s.params.stackCap == some s.stk.length

/-- The end of an opcode step that pushes `v` (R27): AllocationFailure at capacity, with nothing changed. -/
def pushFinish (s : State) (v : Nat) : Host.Outcome State Fault Refusal :=
  if atCap s then raised .allocationFailure 0 s else finish s (v :: s.stk)

/-- An opcode step that replaces `STK[0]` by `f STK[0]`; StackUnderflow(1) on an empty stack (R130, R132). -/
def mapTop (f : Nat → Nat) (s : State) : Host.Outcome State Fault Refusal :=
  match s.stk with
  | a :: rest => finish s (f a :: rest)
  | [] => raised .stackUnderflow 1 s

/-- An opcode step that replaces `STK[0]` and `STK[1]` by `f STK[0] STK[1]`; StackUnderflow(2) below depth 2 (R134, R137). -/
def combineTop (f : Nat → Nat → Nat) (s : State) : Host.Outcome State Fault Refusal :=
  match s.stk with
  | a :: b :: rest => finish s (f a b :: rest)
  | [_] => raised .stackUnderflow 2 s
  | [] => raised .stackUnderflow 2 s

/-! ## The byte channels -/

/-- The answers of the IN port (R12). -/
inductive InAnswer where
  /-- One input byte. -/
  | byte (b : Byte)
  /-- End of input. -/
  | eof
deriving DecidableEq, Repr

/-- `InRead()` (R12, R42): the next byte, consumed; end-of-input for ever once `INQ` is empty. -/
def inRead (s : State) : InAnswer × State :=
  match s.inq with
  | b :: rest => (.byte b, s.withInq rest)
  | [] => (.eof, s)

/-- The value opcode `0` pushes for an answer (R49): the byte zero-extended, 0 on end-of-input. -/
def answerValue : InAnswer → Nat
  | .byte b => zextByte b
  | .eof => 0

/-- `OutWrite(b)` (R12, R42): `OUTQ <- OUTQ ++ [b]`. -/
def outWrite (s : State) (b : Byte) : State := s.withOutq (s.outq ++ [b])

/-! ## The random draw -/

/-- The elements of a list in the order the choices name them: choice `n` takes one of those left. The first argument is
the number of choices. -/
def pickAll {α : Type} (pick : Nat → Nat) : Nat → List α → List α
  | 0, l => l
  | _ + 1, [] => []
  | n + 1, a :: l =>
    (a :: l).getD (pick n % (l.length + 1)) a :: pickAll pick n ((a :: l).eraseIdx (pick n % (l.length + 1)))

/-- `DrawPerm(d)` (R12, R119): the permutation of `0..d-1` that the choices give; every permutation is given by some. -/
def drawPerm (pick : Nat → Nat) (d : Nat) : List Nat := pickAll pick d (List.range d)

/-- `[STK[pi(0)], STK[pi(1)], ...]` (R119). -/
def permute (pi : List Nat) (stk : List Nat) : List Nat := pi.filterMap (fun i => stk[i]?)

/-! ## What the host reads -/

/-- The code of a run status (R36). -/
def Status.code : Status → Nat
  | .idle => 0
  | .running => 1
  | .halted => 2
  | .faulted => 3

/-- The number of a fault code (R37, R166). -/
def FCode.code : FCode → BitVec 3
  | .none => 0
  | .loadError => 1
  | .stackUnderflow => 2
  | .invalidJump => 3
  | .allocationFailure => 4
  | .outOfRange => 5
  | .refused => 6

/-- The exit status (R38, R188): 0 when HALTED, `FAULT_EXIT` when FAULTED or after a LoadError, else not defined. -/
def exitStatus (s : State) : Option Int :=
  match s.status with
  | .halted => some 0
  | .faulted => some s.params.faultExit
  | .idle => if s.frec.fcode = .loadError then some s.params.faultExit else none
  | .running => none

end Sys2Proof.Machine
end

