-- ==== Sys2Proof/Machine/Boot.lean ====
section
/-! DEFINITION. Reset and the LOAD port (spec/70_reset_and_hazards.md R190 to R194, spec/60_exceptions.md R167, R170, R183), and the placing of one code for the next fetch. -/

namespace Sys2Proof.Machine

/-- R190: reset, with the input the host supplies. The program stays. R190 resets only "once the loader has handed over an
accepted program": with none in the Store the block stays as it is, because a reset WITH A PROGRAM is the only way out of
HALTED and FAULTED (R36, R176), and an IDLE block stays IDLE (R192; log entry 20). -/
def applyReset (input : List Byte) (s : State) : State :=
  if 0 < s.chunkCount then
    { s with
      vis := List.replicate s.chunkCount false
      stk := []
      cur := 0
      slot := 0
      ev := false
      frec := .zero
      inq := input
      outq := []
      status := .running }
  else s

/-- What the loader finds (R167, R170, R194). -/
inductive LoadOffer where
  /-- Program text, and memory for the Program Store. -/
  | text (t : List Char)
  /-- A file that cannot be read. -/
  | unreadable
  /-- Program text, and no memory to build the Program Store. -/
  | noRoom (t : List Char)
deriving DecidableEq, Repr

/-- What a load that fails does. A load fails before execution begins (R167, R194), so it acts on an IDLE block only: a
HALTED or FAULTED block keeps all its state until a reset with a program (R36, R37, R176, R186), and RUNNING is left only
by `B` and by a fatal condition of the run (R94; log entry 20). -/
def failLoad (record : State → State) (s : State) : State := if s.status = .idle then record s else s

/-- LoadError (R76, R167, R192): recorded, and the block stays IDLE. -/
def refuseLoad (s : State) : State := failLoad (fun s => s.withFrec (faultRecord .loadError 0 s)) s

/-- AllocationFailure at load (R170, R194): the Program Store cannot be built (log entry 9). -/
def refuseStore (s : State) : State := failLoad (raise .allocationFailure 0) s

/-- R194: the Program Store built for the accepted codes, its visited flags false. -/
def buildStore (codes : List Code) (s : State) : State :=
  (s.withPm codes).withVis (List.replicate (codes.length / 5) false)

/-- The LOAD port (R183, R194): validate, build the Store, reset; the first step follows. -/
def load (offer : LoadOffer) (input : List Byte) (s : State) : State :=
  match offer with
  | .unreadable => refuseLoad s
  | .text t => match parseText t with
    | .ok codes => applyReset input (buildStore codes s)
    | .error _ => refuseLoad s
  | .noRoom t => match parseText t with
    | .ok _ => refuseStore s
    | .error _ => refuseLoad s

/-- The state in which the next fetch reads code `c` and the block runs: `c` put at `(CUR, SLOT)` of the program, at slot 0
where SLOT names none; and where no program is loaded that CUR names a chunk of, a program of the one chunk `c 0 0 0 0`,
entered at slot 0. -/
def placeCode (c : Code) (s : State) : State :=
  if s.cur < s.chunkCount then
    { s with
      pm := s.pm.set (5 * s.cur + (if s.slot.toNat ≤ 4 then s.slot.toNat else 0)) c
      slot := if s.slot.toNat ≤ 4 then s.slot else 0
      status := .running }
  else
    { s with
      pm := [c, 0, 0, 0, 0]
      vis := [false]
      cur := 0
      slot := 0
      ev := false
      status := .running }

end Sys2Proof.Machine
end

