-- ==== Sys2Proof/Machine/Arith.lean ====
section
/-! DEFINITION. The arithmetic opcodes (spec/43_arithmetic.md): 5 INC, 6 DEC, 7 ADD and E ABSD. -/

namespace Sys2Proof.Machine

/-- `5` INC (R130, R131): the sum wraps modulo `2^W`. -/
def execInc (s : State) : Host.Outcome State Fault Refusal :=
  mapTop (fun a => addW s.params.width a 1) s

/-- `6` DEC (R132, R133): saturates at 0. -/
def execDec (s : State) : Host.Outcome State Fault Refusal :=
  mapTop (fun a => subSat a 1) s

/-- `7` ADD (R134, R135): the sum wraps modulo `2^W`. -/
def execAdd (s : State) : Host.Outcome State Fault Refusal :=
  combineTop (fun a b => addW s.params.width b a) s

/-- `E` ABSD (R137, R138). -/
def execAbsd (s : State) : Host.Outcome State Fault Refusal :=
  combineTop absdiff s

end Sys2Proof.Machine
end

