-- ==== Sys2Proof/Machine/Flags.lean ====
section
/-! DEFINITION. The only flags of the block: the visited flags and the entry snapshot (spec/10_state.md R33 to R35). No opcode computes a condition flag (spec/43_arithmetic.md R139). -/

namespace Sys2Proof.Machine

/-- `VisRead(k)` (R12, R17); none where the Store has no chunk `k` (R171). -/
def visRead (s : State) (k : Nat) : Option Bool := if k < s.chunkCount then s.vis[k]? else none

/-- `VisSet(k)` (R12, R17); none where the Store has no chunk `k` (R171). -/
def visSet (s : State) (k : Nat) : Option State :=
  if k < s.chunkCount then some (s.withVis (s.vis.set k true)) else none

/-- The end of a step of `8` or `C` (R146, R152): `SLOT <- SLOT + 2`, skipping the next slot, when `b` holds, and
`SLOT <- SLOT + 1` otherwise. -/
def skipNextIf (b : Bool) (s : State) : Host.Outcome State Fault Refusal :=
  .next (s.withSlot (s.slot + (if b then 2 else 1)))

end Sys2Proof.Machine
end

