-- ==== Sys2Proof/Machine/Control.lean ====
section
/-! DEFINITION. The control opcodes (spec/44_control.md): 8 SKIPF, A RET, B HALT, C SKIPV and F. -/

namespace Sys2Proof.Machine

/-- `8` SKIPF (R146, R147): skips the next slot when `EV = 0`. -/
def execSkipf (s : State) : Host.Outcome State Fault Refusal := skipNextIf (!s.ev) s

/-- `C` SKIPV (R152, R147): skips the next slot when `EV = 1`. -/
def execSkipv (s : State) : Host.Outcome State Fault Refusal := skipNextIf s.ev s

/-- `A` RET (R148): `SLOT <- 7`, and the end-of-chunk step follows. -/
def execRet (s : State) : Host.Outcome State Fault Refusal := .next (s.withSlot 7)

/-- `B` HALT (R150, R151): `STATUS <- HALTED`; SLOT stays that of the `B`. -/
def execHalt (s : State) : Host.Outcome State Fault Refusal := .next (s.withStatus .halted)

/-- `F` (R155): a no-operation or Refused, as `F_MODE` says. -/
def execNop (s : State) : Host.Outcome State Fault Refusal :=
  match s.params.fMode with
  | .nop => .next (advance s)
  | .refuse => raised .refused 0xF s

end Sys2Proof.Machine
end

