-- ==== Sys2Proof/Machine/InOut.lean ====
section
/-! DEFINITION. The I/O opcodes (spec/41_io.md): 0 READ and 1 WRITE. -/

namespace Sys2Proof.Machine

/-- `0` READ (R100, R101). While the IN port has no answer the block holds with no state change (R93); the capacity is
checked before input is consumed (R173). -/
def execRead (s : State) : Host.Outcome State Fault Refusal :=
  if s.inReady then
    if atCap s then raised .allocationFailure 0 s
    else finish (inRead s).2 (answerValue (inRead s).1 :: s.stk)
  else .next s

/-- `1` WRITE (R102, R103). -/
def execWrite (s : State) : Host.Outcome State Fault Refusal :=
  match s.stk with
  | v :: rest => finish (outWrite s (lowByte v)) rest
  | [] => raised .stackUnderflow 1 s

end Sys2Proof.Machine
end

