-- ==== Sys2Proof/Machine/Stack.lean ====
section
/-! DEFINITION. The stack opcodes (spec/42_stack.md): 2 DROP, 3 DUP, 4 SWAP, 9 ROTB and D SHUF. -/

namespace Sys2Proof.Machine

/-- `2` DROP (R110). -/
def execDrop (s : State) : Host.Outcome State Fault Refusal :=
  match s.stk with
  | _ :: rest => finish s rest
  | [] => raised .stackUnderflow 1 s

/-- `3` DUP (R112): StackUnderflow is checked before the capacity (R173). -/
def execDup (s : State) : Host.Outcome State Fault Refusal :=
  match s.stk with
  | a :: _ => pushFinish s a
  | [] => raised .stackUnderflow 1 s

/-- `4` SWAP (R114). -/
def execSwap (s : State) : Host.Outcome State Fault Refusal :=
  match s.stk with
  | a :: b :: rest => finish s (b :: a :: rest)
  | [_] => raised .stackUnderflow 2 s
  | [] => raised .stackUnderflow 2 s

/-- `9` ROTB (R116, R117). -/
def execRotb (s : State) : Host.Outcome State Fault Refusal :=
  match s.stk with
  | a :: rest => finish s (rest ++ [a])
  | [] => match s.params.rotEmpty with
    | .fault => raised .stackUnderflow 1 s
    | .nop => finish s []

/-- `D` SHUF with the choices of one draw given (R119). -/
def shuffleWith (pick : Nat → Nat) (s : State) : Host.Outcome State Fault Refusal :=
  finish (s.withDraws (s.draws + 1)) (permute (drawPerm pick s.stk.length) s.stk)

/-- `D` SHUF (R119, R120): the choices are free values, fresh for each draw. -/
def execShuf (s : State) : Host.Outcome State Fault Refusal :=
  shuffleWith (Config.freePick s.draws) s

end Sys2Proof.Machine
end

