-- ==== Sys2Proof/Machine/Dispatch.lean ====
section
/-! DEFINITION. The dispatch of spec/40_sequencer.md R85: one arm per opcode, no default arm. -/

namespace Sys2Proof.Machine

def exec (i : Instr) (s : State) : Host.Outcome State Fault Refusal :=
  match i with
  | .read => Sys2Proof.Machine.execRead s
  | .write => Sys2Proof.Machine.execWrite s
  | .drop => Sys2Proof.Machine.execDrop s
  | .dup => Sys2Proof.Machine.execDup s
  | .swap => Sys2Proof.Machine.execSwap s
  | .inc => Sys2Proof.Machine.execInc s
  | .dec => Sys2Proof.Machine.execDec s
  | .add => Sys2Proof.Machine.execAdd s
  | .skipf => Sys2Proof.Machine.execSkipf s
  | .rotb => Sys2Proof.Machine.execRotb s
  | .ret => Sys2Proof.Machine.execRet s
  | .halt => Sys2Proof.Machine.execHalt s
  | .skipv => Sys2Proof.Machine.execSkipv s
  | .shuf => Sys2Proof.Machine.execShuf s
  | .absd => Sys2Proof.Machine.execAbsd s
  | .nop => Sys2Proof.Machine.execNop s

end Sys2Proof.Machine
end

