-- ==== Sys2Proof/Machine/Sequencer.lean ====
section
/-! DEFINITION. The part of a step that is not an opcode (spec/40_sequencer.md): the end-of-chunk mark, the indirect jump and chunk entry, and the fetch of a code the Program Store does not have. -/

namespace Sys2Proof.Machine

/-- R82, R87: the slots of the chunk are exhausted, `SLOT >= 5`. -/
def slotsExhausted (s : State) : Bool := decide (5 ≤ s.slot.toNat)

/-- R88: the end-of-chunk step sets `VIS[CUR]`, but for a chunk that `A` ended under `MARK_ON_RETURN = false`.
None where the Store has no chunk `CUR`. -/
def markVisited (s : State) : Option State :=
  if s.slot = 7 ∧ s.params.markOnReturn = false then some s else visSet s s.cur

/-- R90: chunk entry, with the visited flag `b` that was read. -/
def enterChunk (t : Nat) (b : Bool) (s : State) : State := ((s.withCur t).withSlot 0).withEv b

/-- R89 to R91: the jump to the chunk `STK[0]` names, which stays on the stack. -/
def takeJump (s : State) : Host.Outcome State Fault Refusal :=
  match s.stk with
  | [] => raised .stackUnderflow 1 s
  | t :: _ =>
    if t < s.chunkCount then
      match visRead s t with
      | some b => .next (enterChunk t b s)
      | none => raised .outOfRange t s
    else raised .invalidJump t s

/-- The Program Store asked for a chunk or slot it does not have (R96, R171): no run reaches this. -/
def storeOutOfRange (s : State) : Host.Outcome State Fault Refusal := raised .outOfRange s.cur s

/-- R87 to R90, R98: the end-of-chunk step. The mark comes before the checks of the jump. -/
def endOfChunk (s : State) : Host.Outcome State Fault Refusal :=
  match markVisited s with
  | some marked => takeJump marked
  | none => storeOutOfRange s

end Sys2Proof.Machine
end

