-- ==== Sys2Proof/Machine/Step.lean ====
section
/-! DEFINITION. The whole step of the block (spec/40_sequencer.md R98), and the placing of a program word for the host's tests. -/

namespace Sys2Proof.Machine

/-- R80 to R83, R98: no step outside RUNNING; the end-of-chunk step when `SLOT >= 5`; else the opcode at `(CUR, SLOT)`. -/
def step (s : State) : Host.Outcome State Fault Refusal :=
  match s.status with
  | .idle => .fault (.notRunning .idle)
  | .halted => .fault (.notRunning .halted)
  | .faulted => .fault (.notRunning .faulted)
  | .running =>
    if slotsExhausted s then endOfChunk s
    else match fetch s with
      | some i => exec i s
      | none => storeOutOfRange s

/-- `s` with the code of a table word at the place the next step fetches from, and the block running. -/
def State.withFetchWord (s : State) (nbits w : Nat) : State :=
  placeCode (BitVec.ofNat 4 (w % 2 ^ nbits)) s

end Sys2Proof.Machine
end

