-- ==== Sys2Proof/WellFormed.lean ====
section
/-! DEFINITION. Which terms are well formed: instructions (all of them, R70), programs (the hand-off contract, R193) and parameters (the legal values of R7). -/

namespace Sys2Proof

/-- R70: every opcode is valid, and none has a field to check (R67). -/
def Instr.wf : Instr → Bool
  | .read => true
  | .write => true
  | .drop => true
  | .dup => true
  | .swap => true
  | .inc => true
  | .dec => true
  | .add => true
  | .skipf => true
  | .rotb => true
  | .ret => true
  | .halt => true
  | .skipv => true
  | .shuf => true
  | .absd => true
  | .nop => true

/-- R193: the opcode count is a positive multiple of 5, so `N >= 1`. -/
def Program.wf (p : Program) : Bool :=
  p.all Instr.wf && decide (0 < p.length) && decide (p.length % 5 = 0)

/-- R7: `W >= 8`, and `FAULT_EXIT` is not 0. Every value of the other parameters is legal. -/
def Params.wf (p : Params) : Bool :=
  decide (8 ≤ p.width) && decide (p.faultExit ≠ 0)

end Sys2Proof
end

