-- ==== Sys2Proof/Safety.lean ====
section
/-! DEFINITION. What claims about the XRF engine are stated in: the state invariant, the states a run can reach, the end of a run and its observation, and the tables of spec/10_state.md R24. -/

namespace Sys2Proof.Machine

/-- The invariant of the machine; each part names the rule it comes from. -/
structure State.Inv (s : State) : Prop where
  /-- R7: the parameters are legal. -/
  legal : s.params.wf = true
  /-- R41, R65: `PM` holds whole chunks. -/
  wholeChunks : s.pm.length % 5 = 0
  /-- R33: `VIS` holds one flag per chunk. -/
  oneFlagPerChunk : s.vis.length = s.chunkCount
  /-- R9, R23: every stack value is below `2^W`. -/
  valuesInRange : ∀ v ∈ s.stk, v < 2 ^ s.params.width
  /-- R20: the depth is at most `STACK_CAP`. -/
  withinCap : ∀ cap, s.params.stackCap = some cap → s.stk.length ≤ cap
  /-- R28: `CUR` is W bits wide. -/
  curInRange : s.cur < 2 ^ s.params.width
  /-- R37: `FCHUNK` is W bits wide. -/
  fchunkInRange : s.frec.fchunk < 2 ^ s.params.width
  /-- R37: `FINFO` is W bits wide. -/
  finfoInRange : s.frec.finfo < 2 ^ s.params.width
  /-- R28, R96: while RUNNING, `CUR < N`. -/
  curInStore : s.status = .running → s.cur < s.chunkCount
  /-- R35: while a chunk executes, `EV = VIS[CUR]`. -/
  snapshot : s.status = .running → s.vis[s.cur]? = some s.ev
  /-- R37: the record is all zero until a fault. -/
  noRecord : s.status = .running ∨ s.status = .halted → s.frec = .zero
  /-- R150, R151: a HALTED block stands at the slot of the `B` that halted it. -/
  haltedAtHalt : s.status = .halted → s.slot.toNat ≤ 4 ∧ fetch s = some .halt
  /-- R174, R176: a FAULTED block keeps its record of the fault, and the place it records is where it stands. -/
  faultPlace : s.status = .faulted → s.frec.fchunk = s.cur ∧ s.frec.fslot = s.slot
  /-- R96, R166: the faults that a FAULTED block can have recorded; OutOfRange is none of them. -/
  faultCause : s.status = .faulted →
    s.frec.fcode = .stackUnderflow ∨ s.frec.fcode = .invalidJump ∨ s.frec.fcode = .allocationFailure ∨
      s.frec.fcode = .refused
  /-- R167, R192: an IDLE block has no fault recorded but a LoadError. -/
  idleCause : s.status = .idle → s.frec.fcode = .none ∨ s.frec.fcode = .loadError
  /-- R36: IDLE means that no program was accepted. -/
  idleUnloaded : s.status = .idle → s.pm = []

/-- The states a run can be in: from power-up with legal parameters, by the host's moves (load, reset, an answer ready or
not at the IN port; R187, R190) and the block's steps. -/
inductive Reachable : State → Prop where
  | powerUp (p : Params) (legal : p.wf = true) : Reachable (State.powerUp p)
  | load (offer : LoadOffer) (input : List Byte) {s : State} : Reachable s → Reachable (load offer input s)
  | reset (input : List Byte) {s : State} : Reachable s → Reachable (applyReset input s)
  | answer (ready : Bool) {s : State} : Reachable s → Reachable (s.withInReady ready)
  | step {s t : State} : Reachable s → step s = .next t → Reachable t

/-- R95: a run has ended. -/
abbrev Ended (s : State) : Prop := s.status = .halted ∨ s.status = .faulted

/-- R95: what is observed of an ended run. -/
structure Observation where
  status : Status
  exit   : Option Int
  frec   : FaultRecord
  outq   : List Byte
  stk    : List Nat
  vis    : List Bool
  cur    : Nat
deriving DecidableEq, Repr

/-- R95: the observation of an ended run; none while it has not ended. -/
def observe (s : State) : Option Observation :=
  if Ended s then some ⟨s.status, exitStatus s, s.frec, s.outq, s.stk, s.vis, s.cur⟩ else none

/-- The column "min depth" of R24: below it, the opcode raises StackUnderflow. -/
def minDepth (p : Params) : Instr → Nat
  | .read => 0
  | .write => 1
  | .drop => 1
  | .dup => 1
  | .swap => 2
  | .inc => 1
  | .dec => 1
  | .add => 2
  | .skipf => 0
  | .rotb => if p.rotEmpty = .fault then 1 else 0
  | .ret => 0
  | .halt => 0
  | .skipv => 0
  | .shuf => 0
  | .absd => 2
  | .nop => 0

/-- The column "depth change" of R24, on success. -/
def depthChange : Instr → Int
  | .read => 1
  | .write => -1
  | .drop => -1
  | .dup => 1
  | .swap => 0
  | .inc => 0
  | .dec => 0
  | .add => -1
  | .skipf => 0
  | .rotb => 0
  | .ret => 0
  | .halt => 0
  | .skipv => 0
  | .shuf => 0
  | .absd => -1
  | .nop => 0

/-- An opcode executed `n` times in a row, stopping where it does not answer a next state. -/
def execTimes (i : Instr) : Nat → State → Host.Outcome State Fault Refusal
  | 0, s => .next s
  | n + 1, s => match exec i s with
    | .next t => execTimes i n t
    | .fault r => .fault r
    | .refused r => .refused r

end Sys2Proof.Machine
end

