-- ==== Sys2Proof/Certificates/Slice0/Obligations.lean ====
section
/-! DEFINITION. The statements for the provers. Each docstring names the rule of spec/ the statement comes from; where a clause rests on a decision of the spec's own (D<n> of 92_eei_decisions.md) or of the model's (a log entry), it says so. -/

open Sys2Proof Sys2Proof.Machine

/-! ## Decoding, encoding and the loader -/

/-- The 16 words of spec/opcode_table.json decode to their rows (30_encoding.md R66, R68; the 4-bit codes are D9). That one code
may be handed over as a byte, that a byte decodes as the word it is, and that every byte and word with a bit above `op[3:0]`
is no code, is the model's choice (log entry 8). -/
def Obligations.DecodeFollowsOpcodeTable : Prop :=
  (List.range 16).map (decodeTableWord 8) =
    [some .read, some .write, some .drop, some .dup, some .swap, some .inc, some .dec, some .add,
     some .skipf, some .rotb, some .ret, some .halt, some .skipv, some .shuf, some .absd, some .nop] ∧
  (∀ b : Byte, (decodeByte b).toOption = decodeTableWord 8 b.toNat) ∧
  (∀ b : Byte, 16 ≤ b.toNat → decodeByte b = .error (.notACode b)) ∧
  ∀ w : Nat, 16 ≤ w → w < 256 → decodeTableWord 8 w = none

/-- R69, R70: decoding is total and every code is one opcode's; encoding is its inverse both ways. -/
def Obligations.DecodeAndEncodeAreInverse : Prop :=
  (∀ i : Instr, decode (encode i) = i) ∧ (∀ c : Code, encode (decode c) = c)

/-- R73, R76: the loader accepts a text exactly when its non-blank characters (R74, D10) are all among the 16 symbols
(upper case only, R75, D11) and their count is a positive multiple of 5. -/
def Obligations.LoaderAcceptsExactlyWholeChunkTexts : Prop :=
  ∀ text : List Char,
    let syms := text.filter (fun c => !decide (c.toNat = 0x20 ∨ 9 ≤ c.toNat ∧ c.toNat ≤ 13))
    (∃ codes, parseText text = .ok codes) ↔
      (∀ c ∈ syms, c ∈ ['0', '1', '2', '3', '4', '5', '6', '7', '8', '9', 'A', 'B', 'C', 'D', 'E', 'F']) ∧
        0 < syms.length ∧ syms.length % 5 = 0

/-- R46, R65, R73, R76, R193: a text that spells a well-formed program, with blanks anywhere, is loaded whole: the block
runs, `N` is the opcode count divided by 5, and the code at `(k, s)` decodes to the opcode at position `5k + s`. -/
def Obligations.LoadedTextIsFetchedAsWritten : Prop :=
  ∀ (p : Program) (text : List Char) (input : List Byte) (s : State),
    Program.wf p = true → text.filter (fun c => !isBlank c) = p.map Instr.symbol →
    (load (.text text) input s).status = .running ∧
    (load (.text text) input s).chunkCount = p.length / 5 ∧
    ∀ k sl, k < p.length / 5 → sl ≤ 4 → (pmRead (load (.text text) input s) k sl).map decode = p[5 * k + sl]?

/-- R167, R192, R188 (D7, D8): a text the loader rejects, or a file it cannot read, leaves an IDLE block IDLE with LoadError
recorded, the program as it was, a non-zero exit status (log entry 18) and no step enabled. A load that fails changes
nothing in any other status: HALTED and FAULTED keep all state until a reset with a program (R36, R176, R186); that it is
so in RUNNING, and that a load may come there at all, is log entry 20. -/
def Obligations.LoadErrorLeavesBlockIdle : Prop :=
  ∀ (offer : LoadOffer) (input : List Byte) (s : State),
    (offer = .unreadable ∨ ∃ text e, (offer = .text text ∨ offer = .noRoom text) ∧ parseText text = .error e) →
    (s.status = .idle →
      (load offer input s).status = .idle ∧ (load offer input s).frec.fcode = .loadError ∧
      (load offer input s).frec.finfo = 0 ∧ (load offer input s).pm = s.pm ∧
      exitStatus (load offer input s) = some s.params.faultExit ∧
      step (load offer input s) = .fault (.notRunning .idle)) ∧
    (s.status ≠ .idle → load offer input s = s)

/-- R166, R170, R194: a text the loader accepts and has no room for is AllocationFailure, raised before any step
(that the block is then FAULTED, with the program as it was, is DEDUCED, log entry 9). It is raised in IDLE only, and changes
nothing in any other status (HALTED and FAULTED: R36, R37, R176, R186; RUNNING: log entry 20). -/
def Obligations.LoadWithoutRoomIsAllocationFailure : Prop :=
  ∀ (text : List Char) (codes : List Code) (input : List Byte) (s : State), parseText text = .ok codes →
    (s.status = .idle →
      (load (.noRoom text) input s).status = .faulted ∧ (load (.noRoom text) input s).frec.fcode = .allocationFailure ∧
      (load (.noRoom text) input s).pm = s.pm) ∧
    (s.status ≠ .idle → load (.noRoom text) input s = s)

/-! ## Reset -/

/-- R190, R191 (D24): reset with a program accepted. With none, which R190 does not describe, reset changes nothing (log
entry 20), so that only a reset with a program leaves HALTED and FAULTED (R176). -/
def Obligations.ResetEntersChunkZero : Prop :=
  ∀ (input : List Byte) (s : State),
    (0 < s.chunkCount →
      applyReset input s =
        { s with vis := List.replicate s.chunkCount false, stk := [], cur := 0, slot := 0, ev := false,
                 frec := ⟨.none, 0, 0, 0, 0⟩, inq := input, outq := [], status := .running }) ∧
    (s.chunkCount = 0 → applyReset input s = s)

/-- R192 (D24), R20: before a program is accepted the block is IDLE, every item at its reset value, and no step is enabled. -/
def Obligations.PowerUpIsIdle : Prop :=
  ∀ p : Params, (State.powerUp p).status = .idle ∧ (State.powerUp p).stk = [] ∧ (State.powerUp p).cur = 0 ∧
    (State.powerUp p).slot = 0 ∧ (State.powerUp p).ev = false ∧ (State.powerUp p).frec = ⟨.none, 0, 0, 0, 0⟩ ∧
    (State.powerUp p).outq = [] ∧ (State.powerUp p).pm = [] ∧ (State.powerUp p).vis = [] ∧
    step (State.powerUp p) = .fault (.notRunning .idle)

/-! ## The step -/

/-- R82: while RUNNING, the next step is the end-of-chunk step when `SLOT >= 5`, and otherwise runs the opcode whose code
stands at `(CUR, SLOT)` of the program. -/
def Obligations.StepRunsDecodedInstruction : Prop :=
  ∀ s : State, s.status = .running →
    (5 ≤ s.slot.toNat → step s = endOfChunk s) ∧
    (∀ c : Code, s.slot.toNat ≤ 4 → s.cur < s.chunkCount → s.pm[5 * s.cur + s.slot.toNat]? = some c →
      step s = exec (decode c) s)

/-- R81, R36, R95, R176 (D20, D29): the model's step answers a next state exactly while RUNNING; in every other status no step
is enabled and the machine stops (log entry 11), and the run has an observation exactly when it is HALTED or FAULTED. The
step of a READ that waits for the host is not enabled (R86, R93): the model's step answers the same state there (log entry 6). -/
def Obligations.StepEnabledExactlyWhileRunning : Prop :=
  ∀ s : State, (s.status = .running → ∃ t, step s = .next t) ∧
    (s.status ≠ .running → step s = .fault (.notRunning s.status)) ∧
    ((observe s).isSome = true ↔ s.status = .halted ∨ s.status = .faulted)

/-- Log entry 7: with a code placed where the next step fetches, that step runs it, from any state. -/
def Obligations.PlacedWordIsRun : Prop :=
  ∀ (s : State) (c : Code),
    step (s.withFetchWord 8 c.toNat) = exec (decode c) (s.withFetchWord 8 c.toNat)

/-! ## I/O opcodes -/

/-- R49: an input byte is pushed zero-extended, end-of-input pushes 0. The hypotheses are that the host's answer is ready
(R93, log entry 6) and that the stack is not at `STACK_CAP` (R27, D5). -/
def Obligations.ReadPushesByteOrZero : Prop :=
  ∀ s : State, s.inReady = true → s.params.stackCap ≠ some s.stk.length →
    (∀ b rest, s.inq = b :: rest →
      exec .read s = .next { s with stk := b.toNat :: s.stk, inq := rest, slot := s.slot + 1 } ∧ b.toNat ≤ 255) ∧
    (s.inq = [] → exec .read s = .next { s with stk := 0 :: s.stk, slot := s.slot + 1 })

/-- R100, R101, R173 (D5, D6): at `STACK_CAP` opcode `0` raises AllocationFailure and consumes no input. -/
def Obligations.ReadAtCapacityConsumesNothing : Prop :=
  ∀ s : State, s.inReady = true → s.params.stackCap = some s.stk.length →
    exec .read s = .next (raise .allocationFailure 0 s) ∧ (raise .allocationFailure 0 s).inq = s.inq ∧
    (raise .allocationFailure 0 s).stk = s.stk

/-- R93, R86, R101, R186: while the host has no answer ready, a block at a READ holds with no state change, for any number
of steps (the port's readiness is log entry 6). -/
def Obligations.HeldReadWaitsForHost : Prop :=
  ∀ (k : Nat) (s : State), s.status = .running → s.slot.toNat ≤ 4 → fetch s = some .read → s.inReady = false →
    Sys2Proof.core.run k s = .next s

/-- R102, R50: opcode `1`. -/
def Obligations.WriteEmitsLowByte : Prop :=
  ∀ s : State,
    (∀ v rest, s.stk = v :: rest →
      exec .write s =
        .next { s with stk := rest, outq := s.outq ++ [BitVec.ofNat 8 (v % 256)], slot := s.slot + 1 }) ∧
    (s.stk = [] → exec .write s = .next (raise .stackUnderflow 1 s)) ∧ decode 0x1 = .write

/-- R104: only opcode `0` reads the input channel and only opcode `1` writes the output channel. -/
def Obligations.OnlyReadAndWriteTouchChannels : Prop :=
  ∀ (i : Instr) (s t : State), exec i s = .next t →
    (i ≠ .read → t.inq = s.inq) ∧ (i ≠ .write → t.outq = s.outq)

/-! ## Stack opcodes -/

/-- R110: opcode `2`. -/
def Obligations.DropRemovesTop : Prop :=
  ∀ s : State,
    (∀ a rest, s.stk = a :: rest → exec .drop s = .next { s with stk := rest, slot := s.slot + 1 }) ∧
    (s.stk = [] → exec .drop s = .next (raise .stackUnderflow 1 s)) ∧ decode 0x2 = .drop

/-- R112, R173 (the capacity is D5): opcode `3`. -/
def Obligations.DupCopiesTop : Prop :=
  ∀ s : State,
    (∀ a rest, s.stk = a :: rest → s.params.stackCap ≠ some s.stk.length →
      exec .dup s = .next { s with stk := a :: a :: rest, slot := s.slot + 1 }) ∧
    (s.stk ≠ [] → s.params.stackCap = some s.stk.length → exec .dup s = .next (raise .allocationFailure 0 s)) ∧
    (s.stk = [] → exec .dup s = .next (raise .stackUnderflow 1 s))

/-- R114: opcode `4`. -/
def Obligations.SwapExchangesTopTwo : Prop :=
  ∀ s : State,
    (∀ a b rest, s.stk = a :: b :: rest → exec .swap s = .next { s with stk := b :: a :: rest, slot := s.slot + 1 }) ∧
    (s.stk.length < 2 → exec .swap s = .next (raise .stackUnderflow 2 s)) ∧ decode 0x4 = .swap

/-- R116, R117 (`ROT_EMPTY` is D19): opcode `9`. -/
def Obligations.RotbMovesTopToBottom : Prop :=
  ∀ s : State,
    (∀ a rest, s.stk = a :: rest → exec .rotb s = .next { s with stk := rest ++ [a], slot := s.slot + 1 }) ∧
    (s.stk = [] → s.params.rotEmpty = .fault → exec .rotb s = .next (raise .stackUnderflow 1 s)) ∧
    (s.stk = [] → s.params.rotEmpty = .nop → exec .rotb s = .next { s with slot := s.slot + 1 })

/-- R118: opcode `9` applied `d` times to a stack of depth `d >= 1` restores it; only SLOT has moved. -/
def Obligations.RotbDepthTimesRestoresStack : Prop :=
  ∀ s : State, s.stk ≠ [] →
    execTimes .rotb s.stk.length s = .next { s with slot := s.slot + BitVec.ofNat 3 s.stk.length }

/-- R119, R120 (D15): opcode `D` always completes, the values on the stack are the same up to order, and nothing else
changes but SLOT and the model's own count of draws (log entry 4). -/
def Obligations.ShufPermutesStack : Prop :=
  ∀ s : State, ∃ stk', stk'.Perm s.stk ∧
    exec .shuf s = .next { s with stk := stk', slot := s.slot + 1, draws := s.draws + 1 }

/-- R119, R120 (D15): every order of the stack is admitted. Opcode `D` is `shuffleWith` applied to free choices, and each
order of the stack is the result of some choices. That a draw has the form of choices, and that a counter tells the draws
apart, is the model's (log entry 4). -/
def Obligations.ShufAdmitsEveryOrder : Prop :=
  (∀ s : State, exec .shuf s = shuffleWith (Config.freePick s.draws) s) ∧
  ∀ (s : State) (stk' : List Nat), stk'.Perm s.stk →
    ∃ pick, shuffleWith pick s = .next { s with stk := stk', slot := s.slot + 1, draws := s.draws + 1 }

/-- R113, R115, R121: `3` then `2`, `4` twice, and `0` then `1` or `2` restore the stack; `0` then `1` emits the byte read, and
0x00 at end-of-input, where `0` pushes 0 (R49, R102). -/
def Obligations.InversePairsRestoreStack : Prop :=
  ∀ s : State,
    (s.stk ≠ [] → s.params.stackCap ≠ some s.stk.length →
      ∃ t u, exec .dup s = .next t ∧ exec .drop t = .next u ∧ u = { s with slot := s.slot + 2 }) ∧
    (2 ≤ s.stk.length →
      ∃ t u, exec .swap s = .next t ∧ exec .swap t = .next u ∧ u = { s with slot := s.slot + 2 }) ∧
    (∀ b rest, s.inq = b :: rest → s.inReady = true → s.params.stackCap ≠ some s.stk.length →
      ∃ t, exec .read s = .next t ∧
        exec .write t = .next { s with inq := rest, outq := s.outq ++ [b], slot := s.slot + 2 } ∧
        exec .drop t = .next { s with inq := rest, slot := s.slot + 2 }) ∧
    (s.inq = [] → s.inReady = true → s.params.stackCap ≠ some s.stk.length →
      ∃ t, exec .read s = .next t ∧
        exec .write t = .next { s with outq := s.outq ++ [0x00], slot := s.slot + 2 } ∧
        exec .drop t = .next { s with slot := s.slot + 2 })

/-! ## Arithmetic opcodes -/

/-- R130, R131: opcode `5`; that it wraps is D3. -/
def Obligations.IncAddsOneModuloWidth : Prop :=
  ∀ s : State,
    (∀ a rest, s.stk = a :: rest →
      exec .inc s = .next { s with stk := (a + 1) % 2 ^ s.params.width :: rest, slot := s.slot + 1 }) ∧
    (s.stk = [] → exec .inc s = .next (raise .stackUnderflow 1 s))

/-- R132: opcode `6`. -/
def Obligations.DecSaturatesAtZero : Prop :=
  ∀ s : State,
    (∀ a rest, s.stk = a :: rest →
      exec .dec s = .next { s with stk := (if a = 0 then 0 else a - 1) :: rest, slot := s.slot + 1 }) ∧
    (s.stk = [] → exec .dec s = .next (raise .stackUnderflow 1 s)) ∧ decode 0x6 = .dec

/-- R134, R135: opcode `7`; that it wraps is D3. -/
def Obligations.AddSumsTopTwoModuloWidth : Prop :=
  ∀ s : State,
    (∀ a b rest, s.stk = a :: b :: rest →
      exec .add s = .next { s with stk := (b + a) % 2 ^ s.params.width :: rest, slot := s.slot + 1 }) ∧
    (s.stk.length < 2 → exec .add s = .next (raise .stackUnderflow 2 s))

/-- R137: opcode `E`. -/
def Obligations.AbsdIsExactDifference : Prop :=
  ∀ s : State,
    (∀ a b rest, s.stk = a :: b :: rest →
      exec .absd s = .next { s with stk := (if b ≤ a then a - b else b - a) :: rest, slot := s.slot + 1 }) ∧
    (s.stk.length < 2 → exec .absd s = .next (raise .stackUnderflow 2 s)) ∧ decode 0xE = .absd

/-! ## Control opcodes -/

/-- R146: opcode `8`. -/
def Obligations.SkipfSkipsOnFirstVisit : Prop :=
  (∀ s : State, s.ev = false → exec .skipf s = .next { s with slot := s.slot + 2 }) ∧
  (∀ s : State, s.ev = true → exec .skipf s = .next { s with slot := s.slot + 1 }) ∧ decode 0x8 = .skipf

/-- R152: opcode `C`. -/
def Obligations.SkipvSkipsOnRevisit : Prop :=
  (∀ s : State, s.ev = true → exec .skipv s = .next { s with slot := s.slot + 2 }) ∧
  (∀ s : State, s.ev = false → exec .skipv s = .next { s with slot := s.slot + 1 }) ∧ decode 0xC = .skipv

/-- R148 (`SLOT = 7` is D22): opcode `A`. -/
def Obligations.RetEndsChunkEarly : Prop :=
  ∀ s : State, exec .ret s = .next { s with slot := 7 }

/-- R150: opcode `B` halts with exit status 0 and no further step; VIS is not set. -/
def Obligations.HaltEndsRunWithSuccess : Prop :=
  ∀ s : State, exec .halt s = .next { s with status := .halted } ∧
    exitStatus { s with status := .halted } = some 0 ∧
    step { s with status := .halted } = .fault (.notRunning .halted) ∧ decode 0xB = .halt

/-- R155, R71 (`F_MODE` is D4): opcode `F` is a no-operation or Refused. -/
def Obligations.FIsNopOrRefused : Prop :=
  ∀ s : State,
    (s.params.fMode = .nop → exec .nop s = .next { s with slot := s.slot + 1 }) ∧
    (s.params.fMode = .refuse → exec .nop s = .next (raise .refused 0xF s))

/-- R145: `8` and `C` read only EV, and with `A`, `B` and `F` they leave the stack, the channels and VIS alone and raise no
StackUnderflow. What they read is said by comparing two states that agree on EV, SLOT and F_MODE. -/
def Obligations.ControlOpcodesReadOnlySnapshot : Prop :=
  ∀ i : Instr, i = .skipf ∨ i = .skipv ∨ i = .ret ∨ i = .halt ∨ i = .nop → ∀ s : State, ∃ t, exec i s = .next t ∧
    (t.stk = s.stk ∧ t.inq = s.inq ∧ t.outq = s.outq ∧ t.vis = s.vis) ∧
    (t.frec = s.frec ∨ t.frec.fcode ≠ .stackUnderflow) ∧
    ∀ s' : State, ((i = .skipf ∨ i = .skipv) → s'.ev = s.ev) → (i = .nop → s'.params.fMode = s.params.fMode) →
      s'.slot = s.slot → s'.status = s.status → ∃ t', exec i s' = .next t' ∧ t'.slot = t.slot ∧ t'.status = t.status

/-! ## End of chunk -/

/-- R88 to R90: the end-of-chunk step that jumps: the mark (`MARK_ON_RETURN` is D18), then CUR, SLOT and EV (the two
registers are D22); nothing else changes. -/
def Obligations.EndOfChunkMarksThenJumps : Prop :=
  ∀ (s : State) (t : Nat) (rest : List Nat), s.status = .running → 5 ≤ s.slot.toNat → s.cur < s.chunkCount →
    s.vis.length = s.chunkCount → s.stk = t :: rest → t < s.chunkCount →
    let vis' := if s.slot = 7 ∧ s.params.markOnReturn = false then s.vis else s.vis.set s.cur true
    step s = .next { s with vis := vis', cur := t, slot := 0, ev := vis'.getD t false }

/-- R88, R89 (D21, D28): the end-of-chunk step that faults: the mark stays, and the stack, CUR and SLOT keep their values. -/
def Obligations.EndOfChunkFaultsAfterMark : Prop :=
  ∀ s : State, s.status = .running → 5 ≤ s.slot.toNat → s.cur < s.chunkCount →
    let vis' := if s.slot = 7 ∧ s.params.markOnReturn = false then s.vis else s.vis.set s.cur true
    (s.stk = [] → step s = .next { s with vis := vis', status := .faulted,
                                          frec := ⟨.stackUnderflow, s.cur, s.slot, 0, 1⟩ }) ∧
    (∀ t rest, s.stk = t :: rest → s.chunkCount ≤ t →
      step s = .next { s with vis := vis', status := .faulted, frec := ⟨.invalidJump, s.cur, s.slot, 0, t⟩ })

/-- R32: a jump target is never reduced: below `N` it is taken, at `N` or above it is InvalidJump with a non-zero exit
status; and no opcode step moves SLOT backwards. -/
def Obligations.JumpTargetIsNeverReduced : Prop :=
  (∀ (s : State) (t : Nat) (rest : List Nat), s.Inv → s.status = .running → 5 ≤ s.slot.toNat → s.stk = t :: rest →
    ∃ u, step s = .next u ∧
      (t < s.chunkCount → u.status = .running ∧ u.cur = t) ∧
      (s.chunkCount ≤ t → u.status = .faulted ∧ u.frec.fcode = .invalidJump ∧ u.frec.finfo = t ∧ u.cur = s.cur ∧
        ∃ e, exitStatus u = some e ∧ e ≠ 0)) ∧
  (∀ (i : Instr) (s t : State), s.slot.toNat ≤ 4 → exec i s = .next t → s.slot.toNat ≤ t.slot.toNat)

/-- R91: the jump reads `STK[0]` and does not pop it; the next chunk sees its own index on top. -/
def Obligations.JumpLeavesTargetOnStack : Prop :=
  ∀ s t : State, s.status = .running → 5 ≤ s.slot.toNat → step s = .next t →
    t.stk = s.stk ∧ (t.status = .running → t.stk.head? = some t.cur)

/-- R92: a chunk that jumps to itself sees its own mark, but for the `MARK_ON_RETURN = false` exception. -/
def Obligations.SelfJumpSeesOwnMark : Prop :=
  ∀ (s : State) (rest : List Nat), s.status = .running → 5 ≤ s.slot.toNat → s.cur < s.chunkCount →
    s.vis.length = s.chunkCount → s.stk = s.cur :: rest → (s.slot = 7 → s.params.markOnReturn = true) →
    ∃ t, step s = .next t ∧ t.cur = s.cur ∧ t.slot = 0 ∧ t.ev = true

/-- R97: the sequencer sees only `STK[0]`: two states that differ only in the rest of the stack, the channels and the
model's own counters go to the same chunk, with the same flags, or raise the same fault. -/
def Obligations.SequencerSeesOnlyTop : Prop :=
  ∀ s s' t t' : State, s.status = .running → s'.status = .running → 5 ≤ s.slot.toNat →
    s'.params = s.params → s'.pm = s.pm → s'.vis = s.vis → s'.cur = s.cur → s'.slot = s.slot →
    s'.stk.head? = s.stk.head? → step s = .next t → step s' = .next t' →
    t'.cur = t.cur ∧ t'.slot = t.slot ∧ t'.vis = t.vis ∧ t'.status = t.status ∧
    (t.status = .running → t'.ev = t.ev) ∧ (t.status = .faulted → t'.frec = t.frec)

/-- R88, R149: `MARK_ON_RETURN` (D18) matters only to the end-of-chunk step of a chunk that `A` ended. -/
def Obligations.MarkOnReturnMattersOnlyAfterRet : Prop :=
  ∀ (b : Bool) (s t : State), s.slot ≠ 7 → step s = .next t →
    step { s with params := { s.params with markOnReturn := b } } =
      .next { t with params := { t.params with markOnReturn := b } }

/-! ## Faults -/

/-- R174 (D6, D7): raising a fault writes STATUS and FREC and nothing else; `FOP` is the code at `(CUR, SLOT)`, and 0 at
end-of-chunk. -/
def Obligations.RaiseWritesStatusAndRecord : Prop :=
  ∀ (c : FCode) (info : Nat) (s : State),
    (∀ op, s.slot.toNat ≤ 4 → s.cur < s.chunkCount → s.pm[5 * s.cur + s.slot.toNat]? = some op →
      raise c info s = { s with status := .faulted, frec := ⟨c, s.cur, s.slot, op, info⟩ }) ∧
    (5 ≤ s.slot.toNat → raise c info s = { s with status := .faulted, frec := ⟨c, s.cur, s.slot, 0, info⟩ })

/-- R36, R166 (D7): the codes the host reads. -/
def Obligations.StatusAndFaultCodesAreNumbered : Prop :=
  [Status.idle, .running, .halted, .faulted].map Status.code = [0, 1, 2, 3] ∧
  [FCode.none, .loadError, .stackUnderflow, .invalidJump, .allocationFailure, .outOfRange, .refused].map FCode.code =
    [0, 1, 2, 3, 4, 5, 6]

/-- R38, R188 (D8): the exit status; with legal parameters that of a fault is not 0. -/
def Obligations.ExitStatusTellsSuccessFromFault : Prop :=
  ∀ s : State, s.params.wf = true →
    (s.status = .halted → exitStatus s = some 0) ∧
    (s.status = .faulted → exitStatus s = some s.params.faultExit ∧ s.params.faultExit ≠ 0) ∧
    (s.status = .idle → s.frec.fcode = .loadError → exitStatus s = some s.params.faultExit) ∧
    (s.status = .idle → s.frec.fcode ≠ .loadError → exitStatus s = none) ∧
    (s.status = .running → exitStatus s = none)

/-- R175, R13 (D6, D28): a step that faults changes no state but STATUS and FREC, apart from the end-of-chunk mark. -/
def Obligations.FaultsArePrecise : Prop :=
  ∀ s t : State, s.status = .running → step s = .next t → t.status = .faulted →
    t = { s with status := .faulted, frec := t.frec, vis := t.vis } ∧
    t.frec.fchunk = s.cur ∧ t.frec.fslot = s.slot ∧
    (s.slot.toNat ≤ 4 → t.vis = s.vis) ∧
    (5 ≤ s.slot.toNat → t.vis = s.vis ∨ t.vis = s.vis.set s.cur true)

/-- R24, R168 (`9` on an empty stack is D19): an opcode raises StackUnderflow exactly below its minimum depth. -/
def Obligations.UnderflowExactlyBelowMinDepth : Prop :=
  ∀ (i : Instr) (s t : State), s.status = .running → exec i s = .next t →
    (t.status = .faulted ∧ t.frec.fcode = .stackUnderflow ↔ s.stk.length < minDepth s.params i)

/-- R24: the depth of the stack changes by the table's amount on success, and is unchanged by a fault or a hold. -/
def Obligations.DepthChangesAsTabled : Prop :=
  ∀ (i : Instr) (s t : State), s.status = .running → exec i s = .next t →
    (t.status ≠ .faulted → (i = .read → s.inReady = true) →
      (t.stk.length : Int) = s.stk.length + depthChange i) ∧
    (t.status = .faulted ∨ i = .read ∧ s.inReady = false → t.stk = s.stk)

/-! ## What steps leave unchanged -/

/-- R20 (the column "written by"), R57, R145: no opcode writes `PM`, `VIS`, `CUR`, `EV` or a parameter; STATUS and FREC
change only by `B` and by a fault; only `D` takes a draw. -/
def Obligations.OpcodesLeaveSequencerStateAlone : Prop :=
  ∀ (i : Instr) (s t : State), exec i s = .next t →
    t.params = s.params ∧ t.pm = s.pm ∧ t.vis = s.vis ∧ t.cur = s.cur ∧ t.ev = s.ev ∧ t.inReady = s.inReady ∧
    (i ≠ .shuf → t.draws = s.draws) ∧
    (t.status = s.status ∧ t.frec = s.frec ∨ i = .halt ∧ t.status = .halted ∧ t.frec = s.frec ∨
      t.status = .faulted ∧ t.stk = s.stk ∧ t.slot = s.slot)

/-- R33: a visited flag is set only by the end-of-chunk step of its own chunk, and no step clears one; reset makes all of
them 0. -/
def Obligations.VisitedFlagsOnlySetAtEndOfChunk : Prop :=
  (∀ (s t : State) (k : Nat), step s = .next t →
    t.vis.length = s.vis.length ∧
    (s.vis[k]? = some true → t.vis[k]? = some true) ∧
    (t.vis[k]? ≠ s.vis[k]? → k = s.cur ∧ 5 ≤ s.slot.toNat ∧ t.vis[k]? = some true)) ∧
  (∀ (input : List Byte) (s : State) (k : Nat), k < s.chunkCount → (applyReset input s).vis[k]? = some false)

/-- R34, R58, R197: EV is fixed for a chunk's whole execution and is read anew only at chunk entry, so that a mark acts from
the next entry on. -/
def Obligations.SnapshotReadOnlyAtChunkEntry : Prop :=
  ∀ s t : State, s.status = .running → step s = .next t →
    (s.slot.toNat ≤ 4 → t.ev = s.ev ∧ t.cur = s.cur ∧ t.vis = s.vis) ∧
    (5 ≤ s.slot.toNat → t.status = .running → t.slot = 0 ∧ t.vis[t.cur]? = some t.ev)

/-- R84: how an opcode step leaves SLOT. A READ that is held (log entry 6) is not a step of its opcode. -/
def Obligations.SlotAdvancesByOneUnlessOverridden : Prop :=
  ∀ (i : Instr) (s t : State), s.status = .running → (i = .read → s.inReady = true) → exec i s = .next t →
    (t.status = .faulted → t.slot = s.slot) ∧
    (t.status ≠ .faulted →
      (i = .ret → t.slot = 7) ∧
      (i = .halt → t.status = .halted ∧ t.slot = s.slot) ∧
      (i = .skipf ∨ i = .skipv → t.slot = s.slot + 1 ∨ t.slot = s.slot + 2) ∧
      (i ≠ .ret → i ≠ .halt → i ≠ .skipf → i ≠ .skipv → t.slot = s.slot + 1))

/-- R94: the only ways out of RUNNING are opcode `B` and a fatal condition, and a new chunk is only ever the one the top of
the stack names at end-of-chunk. -/
def Obligations.RunningEndsOnlyByHaltOrFault : Prop :=
  ∀ s t : State, s.status = .running → step s = .next t →
    (t.status = .running ∨ t.status = .halted ∨ t.status = .faulted) ∧
    (t.status = .halted ↔ s.slot.toNat ≤ 4 ∧ fetch s = some .halt) ∧
    (t.status = .faulted → t.frec.fcode = .stackUnderflow ∨ t.frec.fcode = .invalidJump ∨
      t.frec.fcode = .allocationFailure ∨ t.frec.fcode = .outOfRange ∨ t.frec.fcode = .refused) ∧
    (t.cur ≠ s.cur → 5 ≤ s.slot.toNat ∧ s.stk.head? = some t.cur) ∧
    (s.slot.toNat ≤ 4 → t.cur = s.cur)

/-! ## Runs and invariants -/

/-- The invariant holds at power-up with any legal parameters, and at the model's reset state (R191, R192). -/
def Obligations.ResetMeetsInvariant : Prop :=
  State.reset.Inv ∧ ∀ p : Params, p.wf = true → (State.powerUp p).Inv

/-- Every step keeps the invariant (R9, R20, R23, R28, R33, R35, R37, R96, R174; the parts are named in Safety.lean). -/
def Obligations.StepKeepsInvariant : Prop :=
  ∀ s t : State, s.Inv → step s = .next t → t.Inv

/-- The host's moves keep the invariant (R187, R190, R194). -/
def Obligations.HostMovesKeepInvariant : Prop :=
  ∀ s : State, s.Inv →
    (∀ offer input, (load offer input s).Inv) ∧ (∀ input, (applyReset input s).Inv) ∧
    (∀ ready, (s.withInReady ready).Inv)

/-- Every state a run can reach meets the invariant, whatever the program, the input and the parameters. -/
def Obligations.ReachableStatesMeetInvariant : Prop := ∀ s : State, Reachable s → s.Inv

/-- R96, R171 (D27): no run raises OutOfRange; while RUNNING, each step either ends a chunk of the program or fetches a code
the Program Store has. -/
def Obligations.OutOfRangeIsNeverRaised : Prop :=
  ∀ s : State, Reachable s → s.frec.fcode ≠ .outOfRange ∧
    (s.status = .running → s.slot.toNat ≤ 4 → ∃ i, fetch s = some i ∧ step s = exec i s)

/-- R41, R52, R55, R57, R60: over any run, output is only appended, input is only consumed from the front, and the program
and the parameters stay. -/
def Obligations.RunsAppendOutputAndConsumeInput : Prop :=
  ∀ (k : Nat) (s t : State), Sys2Proof.core.run k s = .next t →
    s.outq <+: t.outq ∧ t.inq <:+ s.inq ∧ t.pm = s.pm ∧ t.params = s.params

/-- R27, R8 (D5): a finite `STACK_CAP` only ever adds AllocationFailure: a run that does not end in one is, step for step,
the run with `STACK_CAP = INF`. -/
def Obligations.CapacityOnlyAddsAllocationFailure : Prop :=
  ∀ (k : Nat) (s t : State), Sys2Proof.core.run k s = .next t →
    ¬ (t.status = .faulted ∧ t.frec.fcode = .allocationFailure) →
    Sys2Proof.core.run k { s with params := { s.params with stackCap := none } } =
      .next { t with params := { t.params with stackCap := none } }

/-- R156 (D4): `F_MODE` matters only to opcode `F`. -/
def Obligations.FModeMattersOnlyToF : Prop :=
  ∀ (i : Instr) (m : FMode) (s t : State), i ≠ .nop → exec i s = .next t →
    exec i { s with params := { s.params with fMode := m } } =
      .next { t with params := { t.params with fMode := m } }
end

