-- ==== Sys2Proof/Laws/Decode.lean ====
section
/-! SUPPORT. What the decoder and the reading of program text do. -/

namespace Sys2Proof

/-- A code written as a table word of one byte is the code's own word. -/
theorem decodeTableWord_code (c : Code) : decodeTableWord 8 c.toNat = some (decode c) := by
  have h : c.toNat % 2 ^ 8 = c.toNat := Nat.mod_eq_of_lt (by have := c.isLt; omega)
  rw [decodeTableWord, h, if_pos c.isLt]
  simp

/-- A blank spells no code, so that skipping blanks hides no symbol. -/
theorem symbolCode?_of_isBlank {c : Char} (h : isBlank c = true) : symbolCode? c = none := by
  unfold symbolCode?
  split <;> first | rfl | exact absurd h (by decide)

/-- R66: the symbol of an opcode is no blank, so the loader does not skip it. -/
theorem isBlank_symbol (i : Instr) : isBlank i.symbol = false := by cases i <;> decide

/-- Reading a text is reading its non-blank characters. -/
theorem readSymbols_filter (text : List Char) :
    readSymbols text = readSymbols (text.filter (fun c => !isBlank c)) := by
  induction text with
  | nil => rfl
  | cons c rest ih =>
    by_cases hc : isBlank c
    · simp [readSymbols, hc, ih]
    · simp [readSymbols, hc, ih]

/-- Reading succeeds exactly when every non-blank character spells a code; it then gives their codes in order. -/
theorem readSymbols_eq_ok {text : List Char} {codes : List Code} :
    readSymbols text = .ok codes ↔ (text.filter (fun c => !isBlank c)).map symbolCode? = codes.map some := by
  induction text generalizing codes with
  | nil => cases codes <;> simp [readSymbols]
  | cons c rest ih =>
    by_cases hc : isBlank c
    · simp [readSymbols, hc, ih]
    · cases hs : symbolCode? c with
      | none => cases codes <;> simp [readSymbols, hc, hs]
      | some code =>
        cases hr : readSymbols rest with
        | error e =>
          cases codes with
          | nil => simp [readSymbols, hc, hs, hr]
          | cons code' codes =>
            have := mt (@ih codes).mpr (by simp [hr])
            simp only [readSymbols, hc, hs, hr, List.filter_cons, List.map_cons] at *
            simp_all
        | ok codes' =>
          have hmap := ih.mp hr
          cases codes with
          | nil => simp [readSymbols, hc, hs, hr]
          | cons code' codes =>
            simp [readSymbols, hc, hs, hr, hmap, List.map_inj_right]

/-- R76: what an accepted text is. -/
theorem parseText_eq_ok {text : List Char} {codes : List Code} :
    parseText text = .ok codes ↔ readSymbols text = .ok codes ∧ 0 < codes.length ∧ codes.length % 5 = 0 := by
  unfold parseText
  cases h : readSymbols text with
  | error e => simp
  | ok cs =>
    by_cases h0 : cs.length = 0
    · simp only [h0, if_true]
      constructor
      · intro h'; cases h'
      · rintro ⟨h1, h2, -⟩; cases h1; omega
    · by_cases h5 : cs.length % 5 = 0
      · simp only [h0, h5, if_true, if_false]
        constructor
        · intro h'; cases h'; exact ⟨rfl, by omega, h5⟩
        · rintro ⟨h1, -, -⟩; exact h1
      · simp only [h0, h5, if_false]
        constructor
        · intro h'; cases h'
        · rintro ⟨h1, -, h3⟩; cases h1; exact absurd h3 h5

end Sys2Proof
end

