-- ==== Sys2Proof/Laws/State.lean ====
section
/-! SUPPORT. What each field update does to each field of State: one lemma per field per update. -/

namespace Sys2Proof.Machine

@[simp] theorem State.withPm_params (s : State) (v : List Code) : (s.withPm v).params = s.params := rfl
@[simp] theorem State.withPm_pm (s : State) (v : List Code) : (s.withPm v).pm = v := rfl
@[simp] theorem State.withPm_vis (s : State) (v : List Code) : (s.withPm v).vis = s.vis := rfl
@[simp] theorem State.withPm_stk (s : State) (v : List Code) : (s.withPm v).stk = s.stk := rfl
@[simp] theorem State.withPm_cur (s : State) (v : List Code) : (s.withPm v).cur = s.cur := rfl
@[simp] theorem State.withPm_slot (s : State) (v : List Code) : (s.withPm v).slot = s.slot := rfl
@[simp] theorem State.withPm_ev (s : State) (v : List Code) : (s.withPm v).ev = s.ev := rfl
@[simp] theorem State.withPm_status (s : State) (v : List Code) : (s.withPm v).status = s.status := rfl
@[simp] theorem State.withPm_frec (s : State) (v : List Code) : (s.withPm v).frec = s.frec := rfl
@[simp] theorem State.withPm_inq (s : State) (v : List Code) : (s.withPm v).inq = s.inq := rfl
@[simp] theorem State.withPm_outq (s : State) (v : List Code) : (s.withPm v).outq = s.outq := rfl
@[simp] theorem State.withPm_inReady (s : State) (v : List Code) : (s.withPm v).inReady = s.inReady := rfl
@[simp] theorem State.withPm_draws (s : State) (v : List Code) : (s.withPm v).draws = s.draws := rfl

@[simp] theorem State.withVis_params (s : State) (v : List Bool) : (s.withVis v).params = s.params := rfl
@[simp] theorem State.withVis_pm (s : State) (v : List Bool) : (s.withVis v).pm = s.pm := rfl
@[simp] theorem State.withVis_vis (s : State) (v : List Bool) : (s.withVis v).vis = v := rfl
@[simp] theorem State.withVis_stk (s : State) (v : List Bool) : (s.withVis v).stk = s.stk := rfl
@[simp] theorem State.withVis_cur (s : State) (v : List Bool) : (s.withVis v).cur = s.cur := rfl
@[simp] theorem State.withVis_slot (s : State) (v : List Bool) : (s.withVis v).slot = s.slot := rfl
@[simp] theorem State.withVis_ev (s : State) (v : List Bool) : (s.withVis v).ev = s.ev := rfl
@[simp] theorem State.withVis_status (s : State) (v : List Bool) : (s.withVis v).status = s.status := rfl
@[simp] theorem State.withVis_frec (s : State) (v : List Bool) : (s.withVis v).frec = s.frec := rfl
@[simp] theorem State.withVis_inq (s : State) (v : List Bool) : (s.withVis v).inq = s.inq := rfl
@[simp] theorem State.withVis_outq (s : State) (v : List Bool) : (s.withVis v).outq = s.outq := rfl
@[simp] theorem State.withVis_inReady (s : State) (v : List Bool) : (s.withVis v).inReady = s.inReady := rfl
@[simp] theorem State.withVis_draws (s : State) (v : List Bool) : (s.withVis v).draws = s.draws := rfl

@[simp] theorem State.withStk_params (s : State) (v : List Nat) : (s.withStk v).params = s.params := rfl
@[simp] theorem State.withStk_pm (s : State) (v : List Nat) : (s.withStk v).pm = s.pm := rfl
@[simp] theorem State.withStk_vis (s : State) (v : List Nat) : (s.withStk v).vis = s.vis := rfl
@[simp] theorem State.withStk_stk (s : State) (v : List Nat) : (s.withStk v).stk = v := rfl
@[simp] theorem State.withStk_cur (s : State) (v : List Nat) : (s.withStk v).cur = s.cur := rfl
@[simp] theorem State.withStk_slot (s : State) (v : List Nat) : (s.withStk v).slot = s.slot := rfl
@[simp] theorem State.withStk_ev (s : State) (v : List Nat) : (s.withStk v).ev = s.ev := rfl
@[simp] theorem State.withStk_status (s : State) (v : List Nat) : (s.withStk v).status = s.status := rfl
@[simp] theorem State.withStk_frec (s : State) (v : List Nat) : (s.withStk v).frec = s.frec := rfl
@[simp] theorem State.withStk_inq (s : State) (v : List Nat) : (s.withStk v).inq = s.inq := rfl
@[simp] theorem State.withStk_outq (s : State) (v : List Nat) : (s.withStk v).outq = s.outq := rfl
@[simp] theorem State.withStk_inReady (s : State) (v : List Nat) : (s.withStk v).inReady = s.inReady := rfl
@[simp] theorem State.withStk_draws (s : State) (v : List Nat) : (s.withStk v).draws = s.draws := rfl

@[simp] theorem State.withCur_params (s : State) (v : Nat) : (s.withCur v).params = s.params := rfl
@[simp] theorem State.withCur_pm (s : State) (v : Nat) : (s.withCur v).pm = s.pm := rfl
@[simp] theorem State.withCur_vis (s : State) (v : Nat) : (s.withCur v).vis = s.vis := rfl
@[simp] theorem State.withCur_stk (s : State) (v : Nat) : (s.withCur v).stk = s.stk := rfl
@[simp] theorem State.withCur_cur (s : State) (v : Nat) : (s.withCur v).cur = v := rfl
@[simp] theorem State.withCur_slot (s : State) (v : Nat) : (s.withCur v).slot = s.slot := rfl
@[simp] theorem State.withCur_ev (s : State) (v : Nat) : (s.withCur v).ev = s.ev := rfl
@[simp] theorem State.withCur_status (s : State) (v : Nat) : (s.withCur v).status = s.status := rfl
@[simp] theorem State.withCur_frec (s : State) (v : Nat) : (s.withCur v).frec = s.frec := rfl
@[simp] theorem State.withCur_inq (s : State) (v : Nat) : (s.withCur v).inq = s.inq := rfl
@[simp] theorem State.withCur_outq (s : State) (v : Nat) : (s.withCur v).outq = s.outq := rfl
@[simp] theorem State.withCur_inReady (s : State) (v : Nat) : (s.withCur v).inReady = s.inReady := rfl
@[simp] theorem State.withCur_draws (s : State) (v : Nat) : (s.withCur v).draws = s.draws := rfl

@[simp] theorem State.withSlot_params (s : State) (v : Slot) : (s.withSlot v).params = s.params := rfl
@[simp] theorem State.withSlot_pm (s : State) (v : Slot) : (s.withSlot v).pm = s.pm := rfl
@[simp] theorem State.withSlot_vis (s : State) (v : Slot) : (s.withSlot v).vis = s.vis := rfl
@[simp] theorem State.withSlot_stk (s : State) (v : Slot) : (s.withSlot v).stk = s.stk := rfl
@[simp] theorem State.withSlot_cur (s : State) (v : Slot) : (s.withSlot v).cur = s.cur := rfl
@[simp] theorem State.withSlot_slot (s : State) (v : Slot) : (s.withSlot v).slot = v := rfl
@[simp] theorem State.withSlot_ev (s : State) (v : Slot) : (s.withSlot v).ev = s.ev := rfl
@[simp] theorem State.withSlot_status (s : State) (v : Slot) : (s.withSlot v).status = s.status := rfl
@[simp] theorem State.withSlot_frec (s : State) (v : Slot) : (s.withSlot v).frec = s.frec := rfl
@[simp] theorem State.withSlot_inq (s : State) (v : Slot) : (s.withSlot v).inq = s.inq := rfl
@[simp] theorem State.withSlot_outq (s : State) (v : Slot) : (s.withSlot v).outq = s.outq := rfl
@[simp] theorem State.withSlot_inReady (s : State) (v : Slot) : (s.withSlot v).inReady = s.inReady := rfl
@[simp] theorem State.withSlot_draws (s : State) (v : Slot) : (s.withSlot v).draws = s.draws := rfl

@[simp] theorem State.withEv_params (s : State) (v : Bool) : (s.withEv v).params = s.params := rfl
@[simp] theorem State.withEv_pm (s : State) (v : Bool) : (s.withEv v).pm = s.pm := rfl
@[simp] theorem State.withEv_vis (s : State) (v : Bool) : (s.withEv v).vis = s.vis := rfl
@[simp] theorem State.withEv_stk (s : State) (v : Bool) : (s.withEv v).stk = s.stk := rfl
@[simp] theorem State.withEv_cur (s : State) (v : Bool) : (s.withEv v).cur = s.cur := rfl
@[simp] theorem State.withEv_slot (s : State) (v : Bool) : (s.withEv v).slot = s.slot := rfl
@[simp] theorem State.withEv_ev (s : State) (v : Bool) : (s.withEv v).ev = v := rfl
@[simp] theorem State.withEv_status (s : State) (v : Bool) : (s.withEv v).status = s.status := rfl
@[simp] theorem State.withEv_frec (s : State) (v : Bool) : (s.withEv v).frec = s.frec := rfl
@[simp] theorem State.withEv_inq (s : State) (v : Bool) : (s.withEv v).inq = s.inq := rfl
@[simp] theorem State.withEv_outq (s : State) (v : Bool) : (s.withEv v).outq = s.outq := rfl
@[simp] theorem State.withEv_inReady (s : State) (v : Bool) : (s.withEv v).inReady = s.inReady := rfl
@[simp] theorem State.withEv_draws (s : State) (v : Bool) : (s.withEv v).draws = s.draws := rfl

@[simp] theorem State.withStatus_params (s : State) (v : Status) : (s.withStatus v).params = s.params := rfl
@[simp] theorem State.withStatus_pm (s : State) (v : Status) : (s.withStatus v).pm = s.pm := rfl
@[simp] theorem State.withStatus_vis (s : State) (v : Status) : (s.withStatus v).vis = s.vis := rfl
@[simp] theorem State.withStatus_stk (s : State) (v : Status) : (s.withStatus v).stk = s.stk := rfl
@[simp] theorem State.withStatus_cur (s : State) (v : Status) : (s.withStatus v).cur = s.cur := rfl
@[simp] theorem State.withStatus_slot (s : State) (v : Status) : (s.withStatus v).slot = s.slot := rfl
@[simp] theorem State.withStatus_ev (s : State) (v : Status) : (s.withStatus v).ev = s.ev := rfl
@[simp] theorem State.withStatus_status (s : State) (v : Status) : (s.withStatus v).status = v := rfl
@[simp] theorem State.withStatus_frec (s : State) (v : Status) : (s.withStatus v).frec = s.frec := rfl
@[simp] theorem State.withStatus_inq (s : State) (v : Status) : (s.withStatus v).inq = s.inq := rfl
@[simp] theorem State.withStatus_outq (s : State) (v : Status) : (s.withStatus v).outq = s.outq := rfl
@[simp] theorem State.withStatus_inReady (s : State) (v : Status) : (s.withStatus v).inReady = s.inReady := rfl
@[simp] theorem State.withStatus_draws (s : State) (v : Status) : (s.withStatus v).draws = s.draws := rfl

@[simp] theorem State.withFrec_params (s : State) (v : FaultRecord) : (s.withFrec v).params = s.params := rfl
@[simp] theorem State.withFrec_pm (s : State) (v : FaultRecord) : (s.withFrec v).pm = s.pm := rfl
@[simp] theorem State.withFrec_vis (s : State) (v : FaultRecord) : (s.withFrec v).vis = s.vis := rfl
@[simp] theorem State.withFrec_stk (s : State) (v : FaultRecord) : (s.withFrec v).stk = s.stk := rfl
@[simp] theorem State.withFrec_cur (s : State) (v : FaultRecord) : (s.withFrec v).cur = s.cur := rfl
@[simp] theorem State.withFrec_slot (s : State) (v : FaultRecord) : (s.withFrec v).slot = s.slot := rfl
@[simp] theorem State.withFrec_ev (s : State) (v : FaultRecord) : (s.withFrec v).ev = s.ev := rfl
@[simp] theorem State.withFrec_status (s : State) (v : FaultRecord) : (s.withFrec v).status = s.status := rfl
@[simp] theorem State.withFrec_frec (s : State) (v : FaultRecord) : (s.withFrec v).frec = v := rfl
@[simp] theorem State.withFrec_inq (s : State) (v : FaultRecord) : (s.withFrec v).inq = s.inq := rfl
@[simp] theorem State.withFrec_outq (s : State) (v : FaultRecord) : (s.withFrec v).outq = s.outq := rfl
@[simp] theorem State.withFrec_inReady (s : State) (v : FaultRecord) : (s.withFrec v).inReady = s.inReady := rfl
@[simp] theorem State.withFrec_draws (s : State) (v : FaultRecord) : (s.withFrec v).draws = s.draws := rfl

@[simp] theorem State.withInq_params (s : State) (v : List Byte) : (s.withInq v).params = s.params := rfl
@[simp] theorem State.withInq_pm (s : State) (v : List Byte) : (s.withInq v).pm = s.pm := rfl
@[simp] theorem State.withInq_vis (s : State) (v : List Byte) : (s.withInq v).vis = s.vis := rfl
@[simp] theorem State.withInq_stk (s : State) (v : List Byte) : (s.withInq v).stk = s.stk := rfl
@[simp] theorem State.withInq_cur (s : State) (v : List Byte) : (s.withInq v).cur = s.cur := rfl
@[simp] theorem State.withInq_slot (s : State) (v : List Byte) : (s.withInq v).slot = s.slot := rfl
@[simp] theorem State.withInq_ev (s : State) (v : List Byte) : (s.withInq v).ev = s.ev := rfl
@[simp] theorem State.withInq_status (s : State) (v : List Byte) : (s.withInq v).status = s.status := rfl
@[simp] theorem State.withInq_frec (s : State) (v : List Byte) : (s.withInq v).frec = s.frec := rfl
@[simp] theorem State.withInq_inq (s : State) (v : List Byte) : (s.withInq v).inq = v := rfl
@[simp] theorem State.withInq_outq (s : State) (v : List Byte) : (s.withInq v).outq = s.outq := rfl
@[simp] theorem State.withInq_inReady (s : State) (v : List Byte) : (s.withInq v).inReady = s.inReady := rfl
@[simp] theorem State.withInq_draws (s : State) (v : List Byte) : (s.withInq v).draws = s.draws := rfl

@[simp] theorem State.withOutq_params (s : State) (v : List Byte) : (s.withOutq v).params = s.params := rfl
@[simp] theorem State.withOutq_pm (s : State) (v : List Byte) : (s.withOutq v).pm = s.pm := rfl
@[simp] theorem State.withOutq_vis (s : State) (v : List Byte) : (s.withOutq v).vis = s.vis := rfl
@[simp] theorem State.withOutq_stk (s : State) (v : List Byte) : (s.withOutq v).stk = s.stk := rfl
@[simp] theorem State.withOutq_cur (s : State) (v : List Byte) : (s.withOutq v).cur = s.cur := rfl
@[simp] theorem State.withOutq_slot (s : State) (v : List Byte) : (s.withOutq v).slot = s.slot := rfl
@[simp] theorem State.withOutq_ev (s : State) (v : List Byte) : (s.withOutq v).ev = s.ev := rfl
@[simp] theorem State.withOutq_status (s : State) (v : List Byte) : (s.withOutq v).status = s.status := rfl
@[simp] theorem State.withOutq_frec (s : State) (v : List Byte) : (s.withOutq v).frec = s.frec := rfl
@[simp] theorem State.withOutq_inq (s : State) (v : List Byte) : (s.withOutq v).inq = s.inq := rfl
@[simp] theorem State.withOutq_outq (s : State) (v : List Byte) : (s.withOutq v).outq = v := rfl
@[simp] theorem State.withOutq_inReady (s : State) (v : List Byte) : (s.withOutq v).inReady = s.inReady := rfl
@[simp] theorem State.withOutq_draws (s : State) (v : List Byte) : (s.withOutq v).draws = s.draws := rfl

@[simp] theorem State.withInReady_params (s : State) (v : Bool) : (s.withInReady v).params = s.params := rfl
@[simp] theorem State.withInReady_pm (s : State) (v : Bool) : (s.withInReady v).pm = s.pm := rfl
@[simp] theorem State.withInReady_vis (s : State) (v : Bool) : (s.withInReady v).vis = s.vis := rfl
@[simp] theorem State.withInReady_stk (s : State) (v : Bool) : (s.withInReady v).stk = s.stk := rfl
@[simp] theorem State.withInReady_cur (s : State) (v : Bool) : (s.withInReady v).cur = s.cur := rfl
@[simp] theorem State.withInReady_slot (s : State) (v : Bool) : (s.withInReady v).slot = s.slot := rfl
@[simp] theorem State.withInReady_ev (s : State) (v : Bool) : (s.withInReady v).ev = s.ev := rfl
@[simp] theorem State.withInReady_status (s : State) (v : Bool) : (s.withInReady v).status = s.status := rfl
@[simp] theorem State.withInReady_frec (s : State) (v : Bool) : (s.withInReady v).frec = s.frec := rfl
@[simp] theorem State.withInReady_inq (s : State) (v : Bool) : (s.withInReady v).inq = s.inq := rfl
@[simp] theorem State.withInReady_outq (s : State) (v : Bool) : (s.withInReady v).outq = s.outq := rfl
@[simp] theorem State.withInReady_inReady (s : State) (v : Bool) : (s.withInReady v).inReady = v := rfl
@[simp] theorem State.withInReady_draws (s : State) (v : Bool) : (s.withInReady v).draws = s.draws := rfl

@[simp] theorem State.withDraws_params (s : State) (v : Nat) : (s.withDraws v).params = s.params := rfl
@[simp] theorem State.withDraws_pm (s : State) (v : Nat) : (s.withDraws v).pm = s.pm := rfl
@[simp] theorem State.withDraws_vis (s : State) (v : Nat) : (s.withDraws v).vis = s.vis := rfl
@[simp] theorem State.withDraws_stk (s : State) (v : Nat) : (s.withDraws v).stk = s.stk := rfl
@[simp] theorem State.withDraws_cur (s : State) (v : Nat) : (s.withDraws v).cur = s.cur := rfl
@[simp] theorem State.withDraws_slot (s : State) (v : Nat) : (s.withDraws v).slot = s.slot := rfl
@[simp] theorem State.withDraws_ev (s : State) (v : Nat) : (s.withDraws v).ev = s.ev := rfl
@[simp] theorem State.withDraws_status (s : State) (v : Nat) : (s.withDraws v).status = s.status := rfl
@[simp] theorem State.withDraws_frec (s : State) (v : Nat) : (s.withDraws v).frec = s.frec := rfl
@[simp] theorem State.withDraws_inq (s : State) (v : Nat) : (s.withDraws v).inq = s.inq := rfl
@[simp] theorem State.withDraws_outq (s : State) (v : Nat) : (s.withDraws v).outq = s.outq := rfl
@[simp] theorem State.withDraws_inReady (s : State) (v : Nat) : (s.withDraws v).inReady = s.inReady := rfl
@[simp] theorem State.withDraws_draws (s : State) (v : Nat) : (s.withDraws v).draws = v := rfl

end Sys2Proof.Machine
end

