-- ==== Sys2Proof/Laws/Boot.lean ====
section
/-! SUPPORT. What the host's moves load and reset can do. -/

namespace Sys2Proof.Machine

/-- R190: reset with a program in the Store. -/
theorem applyReset_program {s : State} (h : 0 < s.chunkCount) (input : List Byte) :
    applyReset input s =
      { s with vis := List.replicate s.chunkCount false, stk := [], cur := 0, slot := 0, ev := false, frec := .zero,
               inq := input, outq := [], status := .running } := if_pos h

/-- Reset with no program in the Store. -/
theorem applyReset_noProgram {s : State} (h : ¬ 0 < s.chunkCount) (input : List Byte) : applyReset input s = s :=
  if_neg h

theorem failLoad_idle {s : State} (h : s.status = .idle) (record : State → State) : failLoad record s = record s :=
  if_pos h

theorem failLoad_other {s : State} (h : s.status ≠ .idle) (record : State → State) : failLoad record s = s := if_neg h

@[simp] theorem buildStore_chunkCount (codes : List Code) (s : State) :
    (buildStore codes s).chunkCount = codes.length / 5 := rfl

/-- Everything a load can do: a text accepted with room is loaded and the block reset; any other offer acts on an IDLE
block only, which records LoadError, or raises AllocationFailure where the text is accepted. -/
theorem load_cases (offer : LoadOffer) (input : List Byte) (s : State) :
    (∃ t codes, offer = .text t ∧ parseText t = .ok codes ∧ 0 < (buildStore codes s).chunkCount ∧
        codes.length % 5 = 0 ∧ load offer input s = applyReset input (buildStore codes s)) ∨
      s.status ≠ .idle ∧ load offer input s = s ∨
      s.status = .idle ∧ (∀ t codes, offer = .text t ∨ offer = .noRoom t → parseText t ≠ .ok codes) ∧
        load offer input s = s.withFrec (faultRecord .loadError 0 s) ∨
      s.status = .idle ∧ (∃ t codes, offer = .noRoom t ∧ parseText t = .ok codes) ∧
        load offer input s = raise .allocationFailure 0 s := by
  have failed (record : State → State) :
      s.status ≠ .idle ∧ failLoad record s = s ∨ s.status = .idle ∧ failLoad record s = record s := by
    by_cases h : s.status = .idle
    · exact .inr ⟨h, failLoad_idle h record⟩
    · exact .inl ⟨h, failLoad_other h record⟩
  have refusal := failed (fun s => s.withFrec (faultRecord .loadError 0 s))
  cases offer with
  | unreadable => exact .inr (refusal.imp_right fun h => .inl ⟨h.1, by simp, h.2⟩)
  | text t =>
    cases hp : parseText t with
    | ok codes =>
      obtain ⟨-, hpos, h5⟩ := parseText_eq_ok.mp hp
      exact .inl ⟨t, codes, rfl, hp, by rw [buildStore_chunkCount]; omega, h5, by simp [load, hp]⟩
    | error e =>
      have hl : load (.text t) input s = refuseLoad s := by simp [load, hp]
      rw [hl]
      exact .inr (refusal.imp_right fun h => .inl ⟨h.1, by rintro _ _ (h | h) <;> cases h; simp [hp], h.2⟩)
  | noRoom t =>
    cases hp : parseText t with
    | ok codes =>
      have hl : load (.noRoom t) input s = refuseStore s := by simp [load, hp]
      rw [hl]
      exact .inr ((failed _).imp_right fun h => .inr ⟨h.1, ⟨t, codes, rfl, hp⟩, h.2⟩)
    | error e =>
      have hl : load (.noRoom t) input s = refuseLoad s := by simp [load, hp]
      rw [hl]
      exact .inr (refusal.imp_right fun h => .inl ⟨h.1, by rintro _ _ (h | h) <;> cases h; simp [hp], h.2⟩)

/-- R36, R176, R186: a HALTED or FAULTED block keeps all its state under a load, but for a load that hands over a program
and so resets it into RUNNING. -/
theorem load_of_not_idle {s : State} (hs : s.status ≠ .idle) (offer : LoadOffer) (input : List Byte) :
    load offer input s = s ∨ (load offer input s).status = .running := by
  rcases load_cases offer input s with ⟨t, codes, -, -, hN, -, h⟩ | ⟨-, h⟩ | ⟨hi, -⟩ | ⟨hi, -⟩
  · exact .inr (by rw [h, applyReset_program hN])
  · exact .inl h
  · exact absurd hi hs
  · exact absurd hi hs

end Sys2Proof.Machine
end

