-- ==== Sys2Proof/Laws/Operands.lean ====
section
/-! SUPPORT. The operators of R10 stay in `[0, 2^W)`, and the byte conversions of R49 and R50. -/

namespace Sys2Proof.Machine

theorem addW_lt (w : Nat) (a b : Nat) : addW w a b < 2 ^ w := Nat.mod_lt _ (Nat.two_pow_pos w)

/-- With the sum in range nothing is lost. -/
theorem addW_eq_of_lt {w : Nat} {a b : Nat} (h : a + b < 2 ^ w) : addW w a b = a + b := Nat.mod_eq_of_lt h

theorem subSat_le (a b : Nat) : subSat a b ≤ a := by
  unfold subSat
  split <;> omega

theorem absdiff_comm (a b : Nat) : absdiff a b = absdiff b a := by
  unfold absdiff
  split <;> split <;> omega

theorem absdiff_le_max (a b : Nat) : absdiff a b ≤ max a b := by
  unfold absdiff
  split <;> omega

/-- `E` is the block's test for equality (R138). -/
theorem absdiff_eq_zero (a b : Nat) : absdiff a b = 0 ↔ a = b := by
  unfold absdiff
  split <;> omega

theorem zextByte_lt (b : Byte) : zextByte b < 256 := b.isLt

@[simp] theorem lowByte_zextByte (b : Byte) : lowByte (zextByte b) = b := by
  unfold lowByte zextByte
  rw [Nat.mod_eq_of_lt b.isLt]
  exact BitVec.ofNat_toNat .. |>.trans (BitVec.setWidth_eq b)

end Sys2Proof.Machine
end

