-- ==== Sys2Proof/Laws/Ops.lean ====
section
/-! SUPPORT. What each shared operation of Machine/Ops.lean and Machine/Flags.lean does, said once. -/

namespace Sys2Proof.Machine

/-! ## The chunk count and the Program Store -/

@[simp] theorem State.withVis_chunkCount (s : State) (v : List Bool) : (s.withVis v).chunkCount = s.chunkCount := rfl
@[simp] theorem State.withStk_chunkCount (s : State) (v : List Nat) : (s.withStk v).chunkCount = s.chunkCount := rfl
@[simp] theorem State.withCur_chunkCount (s : State) (v : Nat) : (s.withCur v).chunkCount = s.chunkCount := rfl
@[simp] theorem State.withSlot_chunkCount (s : State) (v : Slot) : (s.withSlot v).chunkCount = s.chunkCount := rfl
@[simp] theorem State.withEv_chunkCount (s : State) (v : Bool) : (s.withEv v).chunkCount = s.chunkCount := rfl
@[simp] theorem State.withStatus_chunkCount (s : State) (v : Status) : (s.withStatus v).chunkCount = s.chunkCount := rfl
@[simp] theorem State.withFrec_chunkCount (s : State) (v : FaultRecord) : (s.withFrec v).chunkCount = s.chunkCount := rfl
@[simp] theorem State.withInq_chunkCount (s : State) (v : List Byte) : (s.withInq v).chunkCount = s.chunkCount := rfl
@[simp] theorem State.withOutq_chunkCount (s : State) (v : List Byte) : (s.withOutq v).chunkCount = s.chunkCount := rfl
@[simp] theorem State.withInReady_chunkCount (s : State) (v : Bool) : (s.withInReady v).chunkCount = s.chunkCount := rfl
@[simp] theorem State.withDraws_chunkCount (s : State) (v : Nat) : (s.withDraws v).chunkCount = s.chunkCount := rfl

/-- Whole chunks are where the Store can be read: every slot of every chunk has a code. -/
theorem pmRead_isSome {s : State} {k sl : Nat} (hk : k < s.chunkCount) (hs : sl ≤ 4) : ∃ c, pmRead s k sl = some c := by
  have hlt : 5 * k + sl < s.pm.length := by
    unfold State.chunkCount at hk
    omega
  exact ⟨s.pm[5 * k + sl], by simp [pmRead, hk, hs, hlt]⟩

/-- A read of the Store that answers names a chunk and a slot the program has. -/
theorem pmRead_eq_some {s : State} {k sl : Nat} {c : Code} :
    pmRead s k sl = some c ↔ k < s.chunkCount ∧ sl ≤ 4 ∧ s.pm[5 * k + sl]? = some c := by
  unfold pmRead
  split
  · rename_i h; simp [h.1, h.2]
  · rename_i h
    constructor
    · intro h'; cases h'
    · rintro ⟨h1, h2, -⟩; exact absurd ⟨h1, h2⟩ h

/-- The Store is read through the program alone. -/
theorem pmRead_congr {s t : State} (h : t.pm = s.pm) (k sl : Nat) : pmRead t k sl = pmRead s k sl := by
  unfold pmRead State.chunkCount
  rw [h]

theorem fetch_congr {s t : State} (hp : t.pm = s.pm) (hc : t.cur = s.cur) (hs : t.slot = s.slot) : fetch t = fetch s := by
  simp [fetch, pmRead_congr hp, hc, hs]

theorem fetch_eq_some {s : State} {c : Code} (hs : s.slot.toNat ≤ 4) (hc : s.cur < s.chunkCount)
    (h : s.pm[5 * s.cur + s.slot.toNat]? = some c) : fetch s = some (decode c) := by
  simp [fetch, pmRead_eq_some.mpr ⟨hc, hs, h⟩]

/-- A fetch that answers stands at one of the five slots. -/
theorem slot_le_of_fetch {s : State} {i : Instr} (h : fetch s = some i) : s.slot.toNat ≤ 4 := by
  unfold fetch at h
  cases hp : pmRead s s.cur s.slot.toNat with
  | none => simp [hp] at h
  | some c => exact (pmRead_eq_some.mp hp).2.1

/-! ## Raising a fault -/

@[simp] theorem raise_params (c : FCode) (info : Nat) (s : State) : (raise c info s).params = s.params := rfl
@[simp] theorem raise_pm (c : FCode) (info : Nat) (s : State) : (raise c info s).pm = s.pm := rfl
@[simp] theorem raise_vis (c : FCode) (info : Nat) (s : State) : (raise c info s).vis = s.vis := rfl
@[simp] theorem raise_stk (c : FCode) (info : Nat) (s : State) : (raise c info s).stk = s.stk := rfl
@[simp] theorem raise_cur (c : FCode) (info : Nat) (s : State) : (raise c info s).cur = s.cur := rfl
@[simp] theorem raise_slot (c : FCode) (info : Nat) (s : State) : (raise c info s).slot = s.slot := rfl
@[simp] theorem raise_ev (c : FCode) (info : Nat) (s : State) : (raise c info s).ev = s.ev := rfl
@[simp] theorem raise_inq (c : FCode) (info : Nat) (s : State) : (raise c info s).inq = s.inq := rfl
@[simp] theorem raise_outq (c : FCode) (info : Nat) (s : State) : (raise c info s).outq = s.outq := rfl
@[simp] theorem raise_inReady (c : FCode) (info : Nat) (s : State) : (raise c info s).inReady = s.inReady := rfl
@[simp] theorem raise_draws (c : FCode) (info : Nat) (s : State) : (raise c info s).draws = s.draws := rfl
@[simp] theorem raise_status (c : FCode) (info : Nat) (s : State) : (raise c info s).status = .faulted := rfl
@[simp] theorem raise_frec (c : FCode) (info : Nat) (s : State) : (raise c info s).frec = faultRecord c info s := rfl
@[simp] theorem raise_chunkCount (c : FCode) (info : Nat) (s : State) : (raise c info s).chunkCount = s.chunkCount := rfl
@[simp] theorem faultRecord_fcode (c : FCode) (info : Nat) (s : State) : (faultRecord c info s).fcode = c := rfl
@[simp] theorem faultRecord_fchunk (c : FCode) (info : Nat) (s : State) : (faultRecord c info s).fchunk = s.cur := rfl
@[simp] theorem faultRecord_fslot (c : FCode) (info : Nat) (s : State) : (faultRecord c info s).fslot = s.slot := rfl
@[simp] theorem faultRecord_fop (c : FCode) (info : Nat) (s : State) : (faultRecord c info s).fop = faultingOp s := rfl
@[simp] theorem faultRecord_finfo (c : FCode) (info : Nat) (s : State) : (faultRecord c info s).finfo = info := rfl

/-- `FOP` at end-of-chunk. -/
theorem faultingOp_endOfChunk {s : State} (h : 5 ≤ s.slot.toNat) : faultingOp s = 0 := by
  unfold faultingOp
  rw [if_neg (by omega)]

/-- `FOP` at an opcode of the program. -/
theorem faultingOp_opcode {s : State} {c : Code} (h : pmRead s s.cur s.slot.toNat = some c) : faultingOp s = c := by
  unfold faultingOp
  rw [if_pos (pmRead_eq_some.mp h).2.1, h]
  rfl

/-- The record depends on the program and the place only. -/
theorem faultRecord_congr {s t : State} (hp : t.pm = s.pm) (hc : t.cur = s.cur) (hs : t.slot = s.slot) (c : FCode)
    (info : Nat) : faultRecord c info t = faultRecord c info s := by
  simp [faultRecord, faultingOp, pmRead_congr hp, hc, hs]

/-! ## Ending a step, the stack, the channels, the flags -/

@[simp] theorem advance_params (s : State) : (advance s).params = s.params := rfl
@[simp] theorem advance_pm (s : State) : (advance s).pm = s.pm := rfl
@[simp] theorem advance_vis (s : State) : (advance s).vis = s.vis := rfl
@[simp] theorem advance_stk (s : State) : (advance s).stk = s.stk := rfl
@[simp] theorem advance_cur (s : State) : (advance s).cur = s.cur := rfl
@[simp] theorem advance_ev (s : State) : (advance s).ev = s.ev := rfl
@[simp] theorem advance_status (s : State) : (advance s).status = s.status := rfl
@[simp] theorem advance_frec (s : State) : (advance s).frec = s.frec := rfl
@[simp] theorem advance_inq (s : State) : (advance s).inq = s.inq := rfl
@[simp] theorem advance_outq (s : State) : (advance s).outq = s.outq := rfl
@[simp] theorem advance_inReady (s : State) : (advance s).inReady = s.inReady := rfl
@[simp] theorem advance_draws (s : State) : (advance s).draws = s.draws := rfl
@[simp] theorem advance_slot (s : State) : (advance s).slot = s.slot + 1 := rfl

/-- Whether the stack is at its capacity, as R27 says it. -/
theorem atCap_iff {s : State} : atCap s = true ↔ s.params.stackCap = some s.stk.length := by simp [atCap]

/-- Everything a push at the end of an opcode step can do. -/
theorem pushFinish_cases (s : State) (v : Nat) :
    (s.params.stackCap = some s.stk.length ∧ pushFinish s v = raised .allocationFailure 0 s) ∨
      (s.params.stackCap ≠ some s.stk.length ∧ pushFinish s v = finish s (v :: s.stk)) := by
  unfold pushFinish
  by_cases h : s.params.stackCap = some s.stk.length
  · exact .inl ⟨h, by rw [if_pos (atCap_iff.mpr h)]⟩
  · exact .inr ⟨h, by rw [if_neg (fun hc => h (atCap_iff.mp hc))]⟩

/-- Everything a one-operand opcode step can do. -/
theorem mapTop_cases (f : Nat → Nat) (s : State) :
    (s.stk = [] ∧ mapTop f s = raised .stackUnderflow 1 s) ∨
      ∃ a rest, s.stk = a :: rest ∧ mapTop f s = finish s (f a :: rest) := by
  unfold mapTop
  rcases h : s.stk with _ | ⟨a, rest⟩
  · exact .inl ⟨rfl, rfl⟩
  · exact .inr ⟨a, rest, rfl, rfl⟩

/-- Everything a two-operand opcode step can do. -/
theorem combineTop_cases (f : Nat → Nat → Nat) (s : State) :
    (s.stk.length < 2 ∧ combineTop f s = raised .stackUnderflow 2 s) ∨
      ∃ a b rest, s.stk = a :: b :: rest ∧ combineTop f s = finish s (f a b :: rest) := by
  unfold combineTop
  rcases h : s.stk with _ | ⟨a, _ | ⟨b, rest⟩⟩
  · exact .inl ⟨by simp, rfl⟩
  · exact .inl ⟨by simp, rfl⟩
  · exact .inr ⟨a, b, rest, rfl, rfl⟩

/-- Everything a read of the input channel can do. -/
theorem inRead_cases (s : State) :
    (s.inq = [] ∧ inRead s = (.eof, s)) ∨ ∃ b rest, s.inq = b :: rest ∧ inRead s = (.byte b, s.withInq rest) := by
  unfold inRead
  rcases h : s.inq with _ | ⟨b, rest⟩
  · exact .inl ⟨rfl, rfl⟩
  · exact .inr ⟨b, rest, rfl, rfl⟩

end Sys2Proof.Machine
end

