-- ==== Sys2Proof/Laws/Shuffle.lean ====
section
/-! SUPPORT. The random draw: its choices name each element once, and every order of a list is the result of some choices. -/

namespace Sys2Proof.Machine

/-- The result of the choices is a rearrangement, whatever they are. -/
theorem pickAll_perm {α : Type} (pick : Nat → Nat) : ∀ (n : Nat) (l : List α), (pickAll pick n l).Perm l
  | 0, l => List.Perm.refl l
  | _ + 1, [] => List.Perm.refl []
  | n + 1, a :: l => by
    have hlt : pick n % (l.length + 1) < (a :: l).length := by simpa using Nat.mod_lt _ (Nat.succ_pos l.length)
    have hget : (a :: l).getD (pick n % (l.length + 1)) a = (a :: l)[pick n % (l.length + 1)] := by
      rw [List.getD_eq_getElem _ _ hlt]
    rw [pickAll, hget]
    exact ((pickAll_perm pick n _).cons _).trans (List.getElem_cons_eraseIdx_perm hlt)

/-- The choices act on positions, so they commute with a renaming of the elements. -/
theorem pickAll_map {α β : Type} (f : α → β) (pick : Nat → Nat) :
    ∀ (n : Nat) (l : List α), (pickAll pick n l).map f = pickAll pick n (l.map f)
  | 0, _ => rfl
  | _ + 1, [] => rfl
  | n + 1, a :: l => by
    simp only [pickAll, List.map_cons, List.length_map]
    congr 1
    · have hlt : pick n % (l.length + 1) < l.length + 1 := Nat.mod_lt _ (Nat.succ_pos _)
      rw [← List.map_cons, List.getD_eq_getElem _ _ (by simpa using hlt),
        List.getD_eq_getElem _ _ (by simpa using hlt), List.getElem_map]
    · rw [pickAll_map f pick n, ← List.map_cons, List.eraseIdx_map]

/-- The choices beyond the ones used do not matter. -/
theorem pickAll_congr {α : Type} {p q : Nat → Nat} :
    ∀ (n : Nat) (l : List α), (∀ i, i < n → p i = q i) → pickAll p n l = pickAll q n l
  | 0, _, _ => rfl
  | _ + 1, [], _ => rfl
  | n + 1, a :: l, h => by
    simp only [pickAll, h n (Nat.lt_succ_self n)]
    rw [pickAll_congr n _ (fun i hi => h i (Nat.lt_succ_of_lt hi))]

/-- Every rearrangement of a list is the result of some choices. -/
theorem exists_pickAll {α : Type} : ∀ (l l' : List α), l'.Perm l → ∃ pick, pickAll pick l.length l = l'
  | [], l', h => ⟨fun _ => 0, by rw [List.perm_nil.mp h]; rfl⟩
  | a :: l, l', h => by
    obtain _ | ⟨b, t⟩ := l'
    · simp at h
    obtain ⟨i, hi, hb⟩ := List.mem_iff_getElem.mp (h.subset List.mem_cons_self)
    have ht : t.Perm ((a :: l).eraseIdx i) := by
      have := h.trans (List.getElem_cons_eraseIdx_perm hi).symm
      rw [hb] at this
      exact this.cons_inv
    have hlen : ((a :: l).eraseIdx i).length = l.length := by
      rw [List.length_eraseIdx_of_lt hi]; rfl
    obtain ⟨p, hp⟩ := exists_pickAll ((a :: l).eraseIdx i) t ht
    refine ⟨fun j => if j = l.length then i else p j, ?_⟩
    have hmod : i % (l.length + 1) = i := Nat.mod_eq_of_lt (by simpa using hi)
    simp only [List.length_cons, pickAll, if_true, hmod]
    rw [List.getD_eq_getElem _ _ hi, hb]
    congr 1
    rw [← hp, hlen]
    exact pickAll_congr _ _ (fun j hj => by simp [Nat.ne_of_lt hj])
  termination_by l => l.length

/-- `D` rearranges the stack itself by the choices: the draw of positions and their reading come to the same. -/
theorem permute_drawPerm (pick : Nat → Nat) (stk : List Nat) :
    permute (drawPerm pick stk.length) stk = pickAll pick stk.length stk := by
  have hmap : (pickAll pick stk.length (List.range stk.length)).map (fun i => stk.getD i 0) =
      pickAll pick stk.length stk := by
    rw [pickAll_map]
    congr 1
    apply List.ext_getElem
    · simp
    · intro i h1 h2
      simp [h2]
  rw [← hmap]
  unfold permute drawPerm
  have hmem : ∀ i ∈ pickAll pick stk.length (List.range stk.length), i < stk.length := fun i hi =>
    List.mem_range.mp ((pickAll_perm pick _ _).subset hi)
  generalize pickAll pick stk.length (List.range stk.length) = pi at hmem
  induction pi with
  | nil => rfl
  | cons i pi ih =>
    have hi := hmem i List.mem_cons_self
    rw [List.filterMap_cons, List.map_cons, List.getElem?_eq_getElem hi, List.getD_eq_getElem _ _ hi,
      ih (fun j hj => hmem j (List.mem_cons_of_mem i hj))]

end Sys2Proof.Machine
end

