-- ==== Sys2Proof/Laws/Exec.lean ====
section
/-! SUPPORT. What one opcode, the end-of-chunk step and the whole step can do, each said once. -/

namespace Sys2Proof.Machine

/-- How an opcode step that succeeds leaves the machine: it touches the stack, SLOT, the channels and the count of draws. -/
def opcodeDone (s : State) (stk : List Nat) (slot : Slot) (inq outq : List Byte) (draws : Nat) : State :=
  { s with stk := stk, slot := slot, inq := inq, outq := outq, draws := draws }

/-- Everything one opcode can do: raise a fault, hold, halt, or succeed. -/
theorem exec_cases (i : Instr) (s : State) :
    (∃ c info, exec i s = .next (raise c info s) ∧
        (c = .stackUnderflow ∧ (info = 1 ∨ info = 2) ∨ c = .allocationFailure ∧ info = 0 ∨ c = .refused ∧ info = 0xF)) ∨
      (i = .read ∧ s.inReady = false ∧ exec i s = .next s) ∨
      (i = .halt ∧ exec i s = .next (s.withStatus .halted)) ∨
      ∃ stk slot inq outq draws, i ≠ .halt ∧ exec i s = .next (opcodeDone s stk slot inq outq draws) := by
  have under : ∀ n, (n = 1 ∨ n = 2) → exec i s = raised .stackUnderflow n s →
      ∃ c info, exec i s = .next (raise c info s) ∧ (c = .stackUnderflow ∧ (info = 1 ∨ info = 2) ∨
        c = .allocationFailure ∧ info = 0 ∨ c = .refused ∧ info = 0xF) :=
    fun n hn h => ⟨.stackUnderflow, n, h, .inl ⟨rfl, hn⟩⟩
  have full : exec i s = raised .allocationFailure 0 s →
      ∃ c info, exec i s = .next (raise c info s) ∧ (c = .stackUnderflow ∧ (info = 1 ∨ info = 2) ∨
        c = .allocationFailure ∧ info = 0 ∨ c = .refused ∧ info = 0xF) :=
    fun h => ⟨.allocationFailure, 0, h, .inr (.inl ⟨rfl, rfl⟩)⟩
  have done : ∀ stk, i ≠ .halt → exec i s = finish s stk →
      ∃ stk slot inq outq draws, i ≠ .halt ∧ exec i s = .next (opcodeDone s stk slot inq outq draws) :=
    fun stk hi h => ⟨stk, s.slot + 1, s.inq, s.outq, s.draws, hi, h⟩
  cases i with
  | read =>
    cases hr : s.inReady
    · exact .inr (.inl ⟨rfl, rfl, by simp [exec, execRead, hr]⟩)
    · by_cases hc : atCap s
      · exact .inl (full (by simp [exec, execRead, hr, hc]))
      · refine .inr (.inr (.inr ?_))
        rcases inRead_cases s with ⟨-, h⟩ | ⟨b, rest, -, h⟩
        · exact done (0 :: s.stk) (by simp) (by simp [exec, execRead, hr, hc, h, answerValue])
        · exact ⟨zextByte b :: s.stk, s.slot + 1, rest, s.outq, s.draws, by simp, by
            simp [exec, execRead, hr, hc, h, answerValue, finish, opcodeDone, advance, State.withInq, State.withStk,
              State.withSlot]⟩
  | write =>
    rcases h : s.stk with _ | ⟨v, rest⟩
    · exact .inl (under 1 (.inl rfl) (by simp [exec, execWrite, h]))
    · exact .inr (.inr (.inr ⟨rest, s.slot + 1, s.inq, s.outq ++ [lowByte v], s.draws, by simp, by
        simp [exec, execWrite, h, finish, opcodeDone, advance, outWrite, State.withOutq, State.withStk, State.withSlot]⟩))
  | drop =>
    rcases h : s.stk with _ | ⟨v, rest⟩
    · exact .inl (under 1 (.inl rfl) (by simp [exec, execDrop, h]))
    · exact .inr (.inr (.inr (done rest (by simp) (by simp [exec, execDrop, h]))))
  | dup =>
    rcases h : s.stk with _ | ⟨v, rest⟩
    · exact .inl (under 1 (.inl rfl) (by simp [exec, execDup, h]))
    · rcases pushFinish_cases s v with ⟨-, hp⟩ | ⟨-, hp⟩
      · exact .inl (full (by simp [exec, execDup, h, hp]))
      · exact .inr (.inr (.inr (done (v :: v :: rest) (by simp) (by simp only [exec, execDup, h, hp]))))
  | swap =>
    rcases h : s.stk with _ | ⟨a, _ | ⟨b, rest⟩⟩
    · exact .inl (under 2 (.inr rfl) (by simp [exec, execSwap, h]))
    · exact .inl (under 2 (.inr rfl) (by simp [exec, execSwap, h]))
    · exact .inr (.inr (.inr (done (b :: a :: rest) (by simp) (by simp [exec, execSwap, h]))))
  | inc =>
    rcases mapTop_cases (fun a => addW s.params.width a 1) s with ⟨-, h⟩ | ⟨a, rest, -, h⟩
    · exact .inl (under 1 (.inl rfl) h)
    · exact .inr (.inr (.inr (done _ (by simp) h)))
  | dec =>
    rcases mapTop_cases (fun a => subSat a 1) s with ⟨-, h⟩ | ⟨a, rest, -, h⟩
    · exact .inl (under 1 (.inl rfl) h)
    · exact .inr (.inr (.inr (done _ (by simp) h)))
  | add =>
    rcases combineTop_cases (fun a b => addW s.params.width b a) s with ⟨-, h⟩ | ⟨a, b, rest, -, h⟩
    · exact .inl (under 2 (.inr rfl) h)
    · exact .inr (.inr (.inr (done _ (by simp) h)))
  | absd =>
    rcases combineTop_cases absdiff s with ⟨-, h⟩ | ⟨a, b, rest, -, h⟩
    · exact .inl (under 2 (.inr rfl) h)
    · exact .inr (.inr (.inr (done _ (by simp) h)))
  | skipf =>
    exact .inr (.inr (.inr ⟨s.stk, s.slot + (if !s.ev then 2 else 1), s.inq, s.outq, s.draws, by simp, rfl⟩))
  | skipv =>
    exact .inr (.inr (.inr ⟨s.stk, s.slot + (if s.ev then 2 else 1), s.inq, s.outq, s.draws, by simp, rfl⟩))
  | rotb =>
    rcases h : s.stk with _ | ⟨v, rest⟩
    · cases hr : s.params.rotEmpty
      · exact .inl (under 1 (.inl rfl) (by simp [exec, execRotb, h, hr]))
      · exact .inr (.inr (.inr (done [] (by simp) (by simp [exec, execRotb, h, hr]))))
    · exact .inr (.inr (.inr (done (rest ++ [v]) (by simp) (by simp [exec, execRotb, h]))))
  | ret => exact .inr (.inr (.inr ⟨s.stk, 7, s.inq, s.outq, s.draws, by simp, rfl⟩))
  | halt => exact .inr (.inr (.inl ⟨rfl, rfl⟩))
  | shuf =>
    exact .inr (.inr (.inr ⟨permute (drawPerm (Config.freePick s.draws) s.stk.length) s.stk, s.slot + 1, s.inq, s.outq,
      s.draws + 1, by simp, rfl⟩))
  | nop =>
    cases h : s.params.fMode
    · exact .inr (.inr (.inr (done s.stk (by simp) (by simp [exec, execNop, h, finish, State.withStk]))))
    · exact .inl ⟨.refused, 0xF, by simp [exec, execNop, h, raised], .inr (.inr ⟨rfl, rfl⟩)⟩

/-- Every opcode answers a next state, in every state. -/
theorem exec_isNext (i : Instr) (s : State) : ∃ t, exec i s = .next t := by
  rcases exec_cases i s with ⟨c, info, h, -⟩ | ⟨-, -, h⟩ | ⟨-, h⟩ | ⟨stk, slot, inq, outq, draws, -, h⟩
  · exact ⟨_, h⟩
  · exact ⟨_, h⟩
  · exact ⟨_, h⟩
  · exact ⟨_, h⟩

/-- Everything the end-of-chunk mark can do (R88). -/
theorem markVisited_cases (s : State) :
    (s.slot = 7 ∧ s.params.markOnReturn = false ∧ markVisited s = some s) ∨
      (¬ (s.slot = 7 ∧ s.params.markOnReturn = false) ∧ s.cur < s.chunkCount ∧
        markVisited s = some (s.withVis (s.vis.set s.cur true))) ∨
      (¬ (s.slot = 7 ∧ s.params.markOnReturn = false) ∧ s.chunkCount ≤ s.cur ∧ markVisited s = none) := by
  unfold markVisited visSet
  by_cases h : s.slot = 7 ∧ s.params.markOnReturn = false
  · exact .inl ⟨h.1, h.2, if_pos h⟩
  · by_cases hc : s.cur < s.chunkCount
    · exact .inr (.inl ⟨h, hc, by rw [if_neg h, if_pos hc]⟩)
    · exact .inr (.inr ⟨h, by omega, by rw [if_neg h, if_neg hc]⟩)

/-- Everything the jump can do (R89, R90). -/
theorem takeJump_cases (s : State) :
    (s.stk = [] ∧ takeJump s = raised .stackUnderflow 1 s) ∨
      ∃ t rest, s.stk = t :: rest ∧
        ((s.chunkCount ≤ t ∧ takeJump s = raised .invalidJump t s) ∨
          (t < s.chunkCount ∧ s.vis[t]? = none ∧ takeJump s = raised .outOfRange t s) ∨
          ∃ b, t < s.chunkCount ∧ s.vis[t]? = some b ∧ takeJump s = .next (enterChunk t b s)) := by
  unfold takeJump visRead
  rcases h : s.stk with _ | ⟨t, rest⟩
  · exact .inl ⟨rfl, rfl⟩
  · refine .inr ⟨t, rest, rfl, ?_⟩
    by_cases ht : t < s.chunkCount
    · cases hv : s.vis[t]? with
      | none => exact .inr (.inl ⟨ht, rfl, by simp [ht, hv]⟩)
      | some b => exact .inr (.inr ⟨b, ht, rfl, by simp [ht, hv]⟩)
    · exact .inl ⟨by omega, by simp [ht]⟩

/-- R88's exception: the chunk was ended by `A` under `MARK_ON_RETURN = false`. -/
abbrev MarkExempt (s : State) : Prop := s.slot = 7 ∧ s.params.markOnReturn = false

/-- The visited flags after the end-of-chunk mark. -/
def markedFlags (s : State) : List Bool := if MarkExempt s then s.vis else s.vis.set s.cur true

/-- Everything the end-of-chunk step can do (R88 to R90). -/
theorem endOfChunk_cases (s : State) :
    (¬ MarkExempt s ∧ s.chunkCount ≤ s.cur ∧ endOfChunk s = raised .outOfRange s.cur s) ∨
      ((MarkExempt s ∨ s.cur < s.chunkCount) ∧
        ((s.stk = [] ∧ endOfChunk s = raised .stackUnderflow 1 (s.withVis (markedFlags s))) ∨
          ∃ t rest, s.stk = t :: rest ∧
            ((s.chunkCount ≤ t ∧ endOfChunk s = raised .invalidJump t (s.withVis (markedFlags s))) ∨
              (t < s.chunkCount ∧ (markedFlags s)[t]? = none ∧
                endOfChunk s = raised .outOfRange t (s.withVis (markedFlags s))) ∨
              ∃ b, t < s.chunkCount ∧ (markedFlags s)[t]? = some b ∧
                endOfChunk s = .next (enterChunk t b (s.withVis (markedFlags s)))))) := by
  have marked : (∀ h : MarkExempt s ∨ s.cur < s.chunkCount, endOfChunk s = takeJump (s.withVis (markedFlags s))) ∧
      (¬ MarkExempt s → s.chunkCount ≤ s.cur → endOfChunk s = raised .outOfRange s.cur s) := by
    unfold endOfChunk markedFlags
    rcases markVisited_cases s with ⟨h1, h2, hm⟩ | ⟨h1, h2, hm⟩ | ⟨h1, h2, hm⟩ <;> rw [hm]
    · exact ⟨fun _ => by rw [if_pos ⟨h1, h2⟩]; rfl, fun h => absurd ⟨h1, h2⟩ h⟩
    · exact ⟨fun _ => by rw [if_neg h1], fun _ h => absurd h (by omega)⟩
    · exact ⟨fun h => absurd h (by simp only [h1, false_or]; omega), fun _ _ => rfl⟩
  by_cases h : MarkExempt s ∨ s.cur < s.chunkCount
  · refine .inr ⟨h, ?_⟩
    rw [marked.1 h]
    exact takeJump_cases (s.withVis (markedFlags s))
  · have h' : ¬ MarkExempt s ∧ s.chunkCount ≤ s.cur := by
      constructor
      · exact fun he => h (.inl he)
      · have : ¬ s.cur < s.chunkCount := fun hc => h (.inr hc)
        omega
    exact .inl ⟨h'.1, h'.2, marked.2 h'.1 h'.2⟩

/-- Everything a step can do while RUNNING (R82). -/
theorem step_running {s : State} (h : s.status = .running) :
    (5 ≤ s.slot.toNat ∧ step s = endOfChunk s) ∨
      (s.slot.toNat ≤ 4 ∧ ∃ i, fetch s = some i ∧ step s = exec i s) ∨
      (s.slot.toNat ≤ 4 ∧ fetch s = none ∧ step s = storeOutOfRange s) := by
  unfold step slotsExhausted
  by_cases h5 : 5 ≤ s.slot.toNat
  · exact .inl ⟨h5, by simp [h, h5]⟩
  · cases hf : fetch s with
    | none => exact .inr (.inr ⟨by omega, rfl, by simp [h, h5]⟩)
    | some i => exact .inr (.inl ⟨by omega, i, rfl, by simp [h, h5]⟩)

/-- A step that answers a next state was taken while RUNNING (R81). -/
theorem running_of_step {s t : State} (h : step s = .next t) : s.status = .running := by
  unfold step at h
  cases hs : s.status <;> simp [hs] at h ⊢

/-- What an opcode step that answers `t` has done. -/
theorem exec_next_cases {i : Instr} {s t : State} (h : exec i s = .next t) :
    (∃ c info, t = raise c info s ∧
        (c = .stackUnderflow ∧ (info = 1 ∨ info = 2) ∨ c = .allocationFailure ∧ info = 0 ∨ c = .refused ∧ info = 0xF)) ∨
      (i = .read ∧ s.inReady = false ∧ t = s) ∨ (i = .halt ∧ t = s.withStatus .halted) ∨
      ∃ stk slot inq outq draws, i ≠ .halt ∧ t = opcodeDone s stk slot inq outq draws := by
  rcases exec_cases i s with ⟨c, info, h', hc⟩ | ⟨hi, hr, h'⟩ | ⟨hi, h'⟩ | ⟨stk, slot, inq, outq, draws, hi, h'⟩ <;>
    rw [h'] at h <;> cases h
  · exact .inl ⟨c, info, rfl, hc⟩
  · exact .inr (.inl ⟨hi, hr, rfl⟩)
  · exact .inr (.inr (.inl ⟨hi, rfl⟩))
  · exact .inr (.inr (.inr ⟨_, _, _, _, _, hi, rfl⟩))

/-- What an end-of-chunk step that answers `t` has done. -/
theorem endOfChunk_next_cases {s t : State} (h : endOfChunk s = .next t) :
    (∃ c info flags, t = raise c info (s.withVis flags) ∧ (flags = s.vis ∨ flags = s.vis.set s.cur true) ∧
        (c = .stackUnderflow ∧ info = 1 ∨ c = .invalidJump ∧ s.stk.head? = some info ∨
          c = .outOfRange ∧ (s.chunkCount ≤ s.cur ∨ s.vis.length < s.chunkCount))) ∨
      ∃ x rest b, s.stk = x :: rest ∧ x < s.chunkCount ∧ (markedFlags s)[x]? = some b ∧
        t = enterChunk x b (s.withVis (markedFlags s)) := by
  have flags : markedFlags s = s.vis ∨ markedFlags s = s.vis.set s.cur true := by
    unfold markedFlags
    split
    · exact .inl rfl
    · exact .inr rfl
  have len : (markedFlags s).length = s.vis.length := by
    rcases flags with h | h <;> rw [h]
    exact List.length_set
  rcases endOfChunk_cases s with
      ⟨-, hcur, he⟩ | ⟨-, ⟨hs, he⟩ | ⟨x, rest, hs, ⟨-, he⟩ | ⟨hx, hb, he⟩ | ⟨b, hx, hb, he⟩⟩⟩ <;> rw [he] at h <;> cases h
  · exact .inl ⟨_, _, s.vis, rfl, .inl rfl, .inr (.inr ⟨rfl, .inl hcur⟩)⟩
  · exact .inl ⟨_, _, _, rfl, flags, .inl ⟨rfl, rfl⟩⟩
  · exact .inl ⟨_, _, _, rfl, flags, .inr (.inl ⟨rfl, by rw [hs]; rfl⟩)⟩
  · exact .inl ⟨_, _, _, rfl, flags, .inr (.inr ⟨rfl, .inr (by have := List.getElem?_eq_none_iff.mp hb; omega)⟩)⟩
  · exact .inr ⟨x, rest, b, hs, hx, hb, rfl⟩

/-- What a step that answers `t` has done. -/
theorem step_next_cases {s t : State} (h : step s = .next t) :
    s.status = .running ∧
      ((5 ≤ s.slot.toNat ∧ endOfChunk s = .next t) ∨
        (s.slot.toNat ≤ 4 ∧ ∃ i, fetch s = some i ∧ exec i s = .next t) ∨
        (s.slot.toNat ≤ 4 ∧ fetch s = none ∧ t = raise .outOfRange s.cur s)) := by
  have hr := running_of_step h
  refine ⟨hr, ?_⟩
  rcases step_running hr with ⟨h5, he⟩ | ⟨h4, i, hf, he⟩ | ⟨h4, hf, he⟩ <;> rw [he] at h
  · exact .inl ⟨h5, h⟩
  · exact .inr (.inl ⟨h4, i, hf, h⟩)
  · cases h
    exact .inr (.inr ⟨h4, hf, rfl⟩)

end Sys2Proof.Machine
end

