-- ==== Sys2Proof/Laws/Params.lean ====
section
/-! SUPPORT. What an opcode reads of the parameters: a step of two machines that agree there is the same step. -/

namespace Sys2Proof.Machine

/-- The same machine under other parameters. -/
def State.withParams (s : State) (p : Params) : State := { s with params := p }

@[simp] theorem State.withParams_params (s : State) (p : Params) : (s.withParams p).params = p := rfl
@[simp] theorem State.withParams_stk (s : State) (p : Params) : (s.withParams p).stk = s.stk := rfl
@[simp] theorem State.withParams_inq (s : State) (p : Params) : (s.withParams p).inq = s.inq := rfl
@[simp] theorem State.withParams_ev (s : State) (p : Params) : (s.withParams p).ev = s.ev := rfl
@[simp] theorem State.withParams_inReady (s : State) (p : Params) : (s.withParams p).inReady = s.inReady := rfl
@[simp] theorem State.withParams_chunkCount (s : State) (p : Params) : (s.withParams p).chunkCount = s.chunkCount := rfl

/-- A raised fault is recorded alike whatever the parameters. -/
theorem raised_withParams (c : FCode) (info : Nat) (s : State) (p : Params) :
    raised c info (s.withParams p) = .next ((raise c info s).withParams p) := rfl

/-- An opcode reads `W`, `ROT_EMPTY`, `F_MODE` (opcode `F` only) and, where it comes to a push, whether the stack is at its
capacity, and no other parameter. -/
theorem exec_withParams {i : Instr} {s t : State} {p : Params} (hw : p.width = s.params.width)
    (hr : p.rotEmpty = s.params.rotEmpty) (hf : i = .nop → p.fMode = s.params.fMode)
    (hc : i = .read ∧ s.inReady = true ∨ i = .dup ∧ s.stk ≠ [] → atCap (s.withParams p) = atCap s) (h : exec i s = .next t) :
    exec i (s.withParams p) = .next (t.withParams p) := by
  cases i with
  | read =>
    cases hi : s.inReady
    · simp only [exec, execRead, hi, State.withParams_inReady, Bool.false_eq_true, if_false] at h ⊢
      cases h
      rfl
    · simp only [exec, execRead, hc (.inl ⟨rfl, hi⟩), hi, State.withParams_inReady, if_true] at h ⊢
      cases ha : atCap s
      · rcases inRead_cases s with ⟨hq, hin⟩ | ⟨b, rest, hq, hin⟩
        · simp [ha, hin, finish] at h
          subst h
          simp [inRead, hq]
          rfl
        · simp [ha, hin, finish] at h
          subst h
          simp [inRead, hq]
          rfl
      · simp [ha, raised] at h
        subst h
        rfl
  | write =>
    simp only [exec, execWrite, State.withParams_stk] at h ⊢
    rcases hs : s.stk with _ | ⟨a, rest⟩ <;> rw [hs] at h <;> cases h <;> rfl
  | drop =>
    simp only [exec, execDrop, State.withParams_stk] at h ⊢
    rcases hs : s.stk with _ | ⟨a, rest⟩ <;> rw [hs] at h <;> cases h <;> rfl
  | dup =>
    simp only [exec, execDup, pushFinish, State.withParams_stk] at h ⊢
    rcases hs : s.stk with _ | ⟨a, rest⟩
    · rw [hs] at h; cases h; rfl
    · rw [hc (.inr ⟨rfl, by simp [hs]⟩)]
      cases ha : atCap s <;> simp [hs, ha, finish, raised] at h <;> subst h <;> simp <;> rfl
  | swap =>
    simp only [exec, execSwap, State.withParams_stk] at h ⊢
    rcases hs : s.stk with _ | ⟨a, _ | ⟨b, rest⟩⟩ <;> rw [hs] at h <;> cases h <;> rfl
  | inc =>
    simp only [exec, execInc, mapTop, State.withParams_stk, State.withParams_params, hw] at h ⊢
    rcases hs : s.stk with _ | ⟨a, rest⟩ <;> rw [hs] at h <;> cases h <;> rfl
  | dec =>
    simp only [exec, execDec, mapTop, State.withParams_stk] at h ⊢
    rcases hs : s.stk with _ | ⟨a, rest⟩ <;> rw [hs] at h <;> cases h <;> rfl
  | add =>
    simp only [exec, execAdd, combineTop, State.withParams_stk, State.withParams_params, hw] at h ⊢
    rcases hs : s.stk with _ | ⟨a, _ | ⟨b, rest⟩⟩ <;> rw [hs] at h <;> cases h <;> rfl
  | absd =>
    simp only [exec, execAbsd, combineTop, State.withParams_stk] at h ⊢
    rcases hs : s.stk with _ | ⟨a, _ | ⟨b, rest⟩⟩ <;> rw [hs] at h <;> cases h <;> rfl
  | skipf => cases h; rfl
  | skipv => cases h; rfl
  | rotb =>
    simp only [exec, execRotb, State.withParams_stk, State.withParams_params, hr] at h ⊢
    rcases hs : s.stk with _ | ⟨a, rest⟩
    · cases hm : s.params.rotEmpty <;> rw [hs, hm] at h <;> cases h <;> rfl
    · rw [hs] at h; cases h; rfl
  | ret => cases h; rfl
  | halt => cases h; rfl
  | shuf => cases h; rfl
  | nop =>
    simp only [exec, execNop, State.withParams_params, hf rfl] at h ⊢
    cases hm : s.params.fMode <;> rw [hm] at h <;> cases h <;> rfl

end Sys2Proof.Machine
end

