-- ==== Sys2Proof/Laws/PerInstr.lean ====
section
/-! SUPPORT. Statements about every instruction as syntax, one lemma per constructor. -/

namespace Sys2Proof.Laws.SymbolReadsAsCode

/-- R66, R68: the symbol that spells an opcode is read as the code the encoder gives it, and the opcode is well formed. -/
def Statement (i : Instr) : Prop := symbolCode? i.symbol = some (encode i) ∧ i.wf = true

theorem read : Statement .read := ⟨rfl, rfl⟩
theorem write : Statement .write := ⟨rfl, rfl⟩
theorem drop : Statement .drop := ⟨rfl, rfl⟩
theorem dup : Statement .dup := ⟨rfl, rfl⟩
theorem swap : Statement .swap := ⟨rfl, rfl⟩
theorem inc : Statement .inc := ⟨rfl, rfl⟩
theorem dec : Statement .dec := ⟨rfl, rfl⟩
theorem add : Statement .add := ⟨rfl, rfl⟩
theorem skipf : Statement .skipf := ⟨rfl, rfl⟩
theorem rotb : Statement .rotb := ⟨rfl, rfl⟩
theorem ret : Statement .ret := ⟨rfl, rfl⟩
theorem halt : Statement .halt := ⟨rfl, rfl⟩
theorem skipv : Statement .skipv := ⟨rfl, rfl⟩
theorem shuf : Statement .shuf := ⟨rfl, rfl⟩
theorem absd : Statement .absd := ⟨rfl, rfl⟩
theorem nop : Statement .nop := ⟨rfl, rfl⟩

end Sys2Proof.Laws.SymbolReadsAsCode
end

