-- ==== Sys2Proof/Laws/Run.lean ====
section
/-! SUPPORT. Runs of the machine, one step at a time. -/

namespace Sys2Proof.Machine

theorem run_zero (s : State) : Sys2Proof.core.run 0 s = .next s := rfl

theorem run_succ_of_next {s t : State} (k : Nat) (h : step s = .next t) :
    Sys2Proof.core.run (k + 1) s = Sys2Proof.core.run k t := by
  have unfolded : ∀ (M : Host.Core) (s t : M.State), M.step s = .next t → M.run (k + 1) s = M.run k t := by
    intro M s t h
    rw [Host.Core.run, h]
  exact unfolded Sys2Proof.core s t h

/-- A run that answers a state has taken a first step. -/
theorem exists_step_of_run {s u : State} {k : Nat} (h : Sys2Proof.core.run (k + 1) s = .next u) :
    ∃ t, step s = .next t ∧ Sys2Proof.core.run k t = .next u := by
  have unfolded : ∀ (M : Host.Core) (s u : M.State), M.run (k + 1) s = .next u →
      ∃ t, M.step s = .next t ∧ M.run k t = .next u := by
    intro M s u h
    rw [Host.Core.run] at h
    cases hs : M.step s with
    | next t => rw [hs] at h; exact ⟨t, rfl, h⟩
    | fault r => rw [hs] at h; cases h
    | refused r => rw [hs] at h; cases h
  exact unfolded Sys2Proof.core s u h

end Sys2Proof.Machine
end

