-- ==== Sys2Proof/Tests/Slice0.lean ====
section
/-! SUPPORT. Tests of the model against the spec's encodings (spec/30_encoding.md) and vectors (spec/95_test_vectors.md, named in each comment), the well-formedness smoke tests, and a witness for the hypotheses of each statement that has any. -/

namespace Sys2Proof.Tests

open Sys2Proof Sys2Proof.Machine

/-- The state an outcome answers. -/
def after : Host.Outcome State Fault Refusal → Option State
  | .next s => some s
  | .fault _ => none
  | .refused _ => none

/-- A running machine of two chunks `58B16 A0000`, at chunk 0, slot 0, with stack `stk` and input `inq`. -/
def at0 (stk : List Nat) (inq : List Byte := []) : State :=
  { State.powerUp Params.default with
    pm := [5, 8, 0xB, 1, 6, 0xA, 0, 0, 0, 0], vis := [false, false], status := .running, stk := stk, inq := inq }

/-- The stack after an opcode, where it does not fault. -/
def stackAfter (i : Instr) (s : State) : Option (List Nat) :=
  (after (exec i s)).bind fun t => if t.status = .faulted then none else some t.stk

/-- The fault code and FINFO after an opcode that faults. -/
def faultAfter (i : Instr) (s : State) : Option (FCode × Nat) :=
  (after (exec i s)).bind fun t => if t.status = .faulted then some (t.frec.fcode, t.frec.finfo) else none

/-! ## Well-formedness -/

theorem test_wf_program : Program.wf [.read, .read, .read, .read, .write] = true := by decide
theorem test_wf_refuses_empty_program : Program.wf [] = false := by decide
theorem test_wf_refuses_four_opcodes : Program.wf [.read, .read, .read, .read] = false := by decide
theorem test_wf_refuses_narrow_width : Params.wf { width := 7 } = false := by decide
theorem test_wf_accepts_width_eight : Params.wf { width := 8 } = true := by decide
theorem test_wf_refuses_zero_fault_exit : Params.wf { faultExit := 0 } = false := by decide

/-! ## Decoding: the codes of R68, bit by bit -/

theorem test_decode_read : decode 0b0000#4 = .read := by decide
theorem test_decode_write : decode 0b0001#4 = .write := by decide
theorem test_decode_drop : decode 0b0010#4 = .drop := by decide
theorem test_decode_dup : decode 0b0011#4 = .dup := by decide
theorem test_decode_swap : decode 0b0100#4 = .swap := by decide
theorem test_decode_inc : decode 0b0101#4 = .inc := by decide
theorem test_decode_dec : decode 0b0110#4 = .dec := by decide
theorem test_decode_add : decode 0b0111#4 = .add := by decide
theorem test_decode_skipf : decode 0b1000#4 = .skipf := by decide
theorem test_decode_rotb : decode 0b1001#4 = .rotb := by decide
theorem test_decode_ret : decode 0b1010#4 = .ret := by decide
theorem test_decode_halt : decode 0b1011#4 = .halt := by decide
theorem test_decode_skipv : decode 0b1100#4 = .skipv := by decide
theorem test_decode_shuf : decode 0b1101#4 = .shuf := by decide
theorem test_decode_absd : decode 0b1110#4 = .absd := by decide
theorem test_decode_nop : decode 0b1111#4 = .nop := by decide
theorem test_decode_table_word : decodeTableWord 4 0xE = some .absd := by decide
theorem test_decode_byte_rejects : decodeByte 0x1E = .error (.notACode 0x1E) := by rfl

/-! ## The loader: vectors L1, L4, L5, L6 and L7 -/

theorem test_load_L1 : parseText ['0', '0', '0', '0', '1', ' ', '1', 'A', '1', '1', '1'] =
    .ok [0, 0, 0, 0, 1, 1, 0xA, 1, 1, 1] := by rfl
theorem test_load_L4 : parseText ['0', '0', '0', '0', 'G'] = .error (.badSymbol 'G') := by rfl
theorem test_load_L5 : parseText ['a', 'b', 'c', 'd', 'e'] = .error (.badSymbol 'a') := by rfl
theorem test_load_L6 : parseText ['0', ' ', '0', '\n', '0', '\t', '0', ' ', '1'] = .ok [0, 0, 0, 0, 1] := by rfl
/-- R176, R186: a load that fails leaves a HALTED block as it is. -/
theorem test_load_refused_when_halted : load (.text ['0']) [] { at0 [7] with status := .halted } =
    { at0 [7] with status := .halted } := by rfl
/-- R36, R190: an accepted load resets a FAULTED block into RUNNING. -/
theorem test_load_accepted_when_faulted :
    (load (.text ['B', '0', '0', '0', '0']) [] { at0 [7] with status := .faulted }).status = .running := by rfl
theorem test_load_L7 : parseText ['0', '0', '0', '0', '1', '0'] = .error (.notWholeChunks 6) := by rfl

/-! ## One opcode each -/

-- O4: an input byte goes on top, and is consumed.
theorem test_read_byte : (after (exec .read (at0 [5] [0xFF]))).map (fun t => (t.stk, t.inq)) = some ([255, 5], []) := by
  decide
-- O5: at capacity no byte is consumed.
theorem test_read_at_cap :
    (after (exec .read { at0 [7] [0x41] with params := { stackCap := some 1 } })).map
      (fun t => (t.frec.fcode, t.stk, t.inq)) = some (.allocationFailure, [7], [0x41]) := by decide
-- O7: the low byte of 256.
theorem test_write_low_byte : (after (exec .write (at0 [256, 3]))).map (fun t => (t.stk, t.outq)) = some ([3], [0x00]) := by
  decide
-- O9.
theorem test_write_empty : faultAfter .write (at0 []) = some (.stackUnderflow, 1) := by decide
-- K1.
theorem test_drop : stackAfter .drop (at0 [5, 6]) = some [6] := by decide
-- K4.
theorem test_dup : stackAfter .dup (at0 [7]) = some [7, 7] := by decide
-- K7: underflow is checked before the capacity.
theorem test_dup_empty_at_cap :
    faultAfter .dup { at0 [] with params := { stackCap := some 0 } } = some (.stackUnderflow, 1) := by decide
-- K8.
theorem test_swap : stackAfter .swap (at0 [1, 2, 3]) = some [2, 1, 3] := by decide
-- K10.
theorem test_swap_one : faultAfter .swap (at0 [1]) = some (.stackUnderflow, 2) := by decide
-- K12.
theorem test_rotb : stackAfter .rotb (at0 [1, 2, 3, 4]) = some [2, 3, 4, 1] := by decide
-- K15, with ROT_EMPTY = NOP.
theorem test_rotb_empty_nop : stackAfter .rotb { at0 [] with params := { rotEmpty := .nop } } = some [] := by decide
-- R119's example: one of the six orders.
theorem test_shuf_order : (after (shuffleWith (fun n => if n = 2 then 2 else 0) (at0 [1, 2, 3]))).map (·.stk) =
    some [3, 1, 2] := by decide
-- K16.
theorem test_shuf_empty : stackAfter .shuf (at0 []) = some [] := by decide
-- A2 and A5: the wrap depends on W.
theorem test_inc_wraps : stackAfter .inc (at0 [0xFFFFFFFF]) = some [0] := by decide
theorem test_inc_wraps_at_eight : stackAfter .inc { at0 [255] with params := { width := 8 } } = some [0] := by decide
-- A7 and A9.
theorem test_dec_saturates : stackAfter .dec (at0 [0]) = some [0] := by decide
theorem test_dec_large : stackAfter .dec (at0 [0xFFFFFFFF]) = some [0xFFFFFFFE] := by decide
-- A11 and A13.
theorem test_add : stackAfter .add (at0 [2, 3, 9]) = some [5, 9] := by decide
theorem test_add_wraps : stackAfter .add (at0 [0xFFFFFFFF, 0xFFFFFFFF]) = some [0xFFFFFFFE] := by decide
-- A16 and A17.
theorem test_absd_top_less : stackAfter .absd (at0 [3, 10]) = some [7] := by decide
theorem test_absd_top_more : stackAfter .absd (at0 [10, 3, 1]) = some [7, 1] := by decide
-- T4 and T2.
theorem test_skipf_past_end : (after (exec .skipf { at0 [] with slot := 4 })).map (·.slot) = some 6 := by decide
theorem test_skipf_revisit : (after (exec .skipf { at0 [] with slot := 1, ev := true })).map (·.slot) = some 2 := by decide
-- T5 and T6.
theorem test_skipv_revisit : (after (exec .skipv { at0 [] with ev := true })).map (·.slot) = some 2 := by decide
theorem test_skipv_first : (after (exec .skipv (at0 []))).map (·.slot) = some 1 := by decide
-- T8.
theorem test_ret : (after (exec .ret { at0 [0] with slot := 1 })).map (fun t => (t.slot, t.stk)) = some (7, [0]) := by
  decide
-- T9.
theorem test_halt : (after (exec .halt (at0 []))).map (fun t => (t.status, exitStatus t, t.vis)) =
    some (.halted, some 0, [false, false]) := by decide
-- T10 and T11.
theorem test_nop : (after (exec .nop { at0 [] with slot := 2 })).map (·.slot) = some 3 := by decide
theorem test_nop_refused : faultAfter .nop { at0 [] with slot := 2, params := { fMode := .refuse } } =
    some (.refused, 0xF) := by decide

/-! ## The sequencer: vectors S1, S2, S6, S8 and S10, and one step of a placed word -/

theorem test_step_S1 : (after (step { at0 [1, 7] with slot := 5 })).map (fun t => (t.vis, t.cur, t.slot, t.ev, t.stk)) =
    some ([true, false], 1, 0, false, [1, 7]) := by decide
theorem test_step_S2 : (after (step { at0 [2] with slot := 5 })).map (fun t => (t.vis, t.status, t.frec, t.cur, t.stk)) =
    some ([true, false], .faulted, ⟨.invalidJump, 0, 5, 0, 2⟩, 0, [2]) := by decide
theorem test_step_S6 :
    (after (step { at0 [0] with slot := 7, params := { markOnReturn := false } })).map (fun t => (t.vis, t.slot, t.ev)) =
      some ([false, false], 0, false) := by decide
theorem test_step_S8 : (after (step { at0 [0xFFFFFFFF] with slot := 5 })).map (fun t => (t.frec.fcode, t.frec.finfo)) =
    some (.invalidJump, 0xFFFFFFFF) := by decide
theorem test_step_S10 : (after (step (at0 [1]))).map (fun t => (t.stk, t.slot)) = some ([2], 1) := by decide
theorem test_step_from_reset : (after (step (State.reset.withFetchWord 8 0x0))).map (fun t => (t.stk, t.slot)) =
    some ([0], 1) := by decide

/-! ## Witnesses: for each statement with hypotheses, a state and operands that meet them, clause by clause -/

/-- `at0` with room for exactly its own stack. -/
def full0 (stk : List Nat) : State := { at0 stk with params := { stackCap := some stk.length } }

theorem inv_at0 : (at0 [1, 7]).Inv where
  legal := by decide
  wholeChunks := by decide
  oneFlagPerChunk := by decide
  valuesInRange := by decide
  withinCap := by intro cap h; cases h
  curInRange := by decide
  fchunkInRange := by decide
  finfoInRange := by decide
  curInStore := by decide
  snapshot := by decide
  noRecord := by decide
  haltedAtHalt := by decide
  faultPlace := by decide
  faultCause := by decide
  idleCause := by decide
  idleUnloaded := by decide

theorem inv_end0 (t : Nat) (ht : t = 1 ∨ t = 2) : State.Inv { at0 [t] with slot := 5 } where
  legal := rfl
  wholeChunks := by simp [at0]
  oneFlagPerChunk := by simp [at0, State.chunkCount]
  valuesInRange := by rcases ht with rfl | rfl <;> decide
  withinCap := by intro cap h; cases h
  curInRange := Nat.two_pow_pos _
  fchunkInRange := Nat.two_pow_pos _
  finfoInRange := Nat.two_pow_pos _
  curInStore := by simp [at0, State.powerUp, State.chunkCount]
  snapshot := by intro _; rfl
  noRecord := by intro _; rfl
  haltedAtHalt := by intro h; cases h
  faultPlace := by intro h; cases h
  faultCause := by intro h; cases h
  idleCause := by intro h; cases h
  idleUnloaded := by intro h; cases h

theorem witness_LoadedTextIsFetchedAsWritten :
    ∃ (p : Program) (text : List Char), Program.wf p = true ∧ text.filter (fun c => !isBlank c) = p.map Instr.symbol ∧
      4 < p.length / 5 * 5 :=
  ⟨[.read, .write, .halt, .read, .read], ['0', '1', ' ', 'B', '\n', '0', '0'], by decide, by decide, by decide⟩
theorem witness_DecodeFollowsOpcodeTable : (∃ b : Byte, b.toNat = 16) ∧ ∃ w : Nat, 16 ≤ w ∧ w < 256 ∧ w = 255 :=
  ⟨⟨0x10, rfl⟩, 255, by decide⟩
theorem witness_LoadErrorLeavesBlockIdle :
    (∃ text e, parseText text = .error e) ∧ (∃ offer : LoadOffer, offer = .unreadable) ∧
    (∃ s : State, s.status = .idle) ∧ ∃ s : State, s.status = .halted ∧ s.status ≠ .idle :=
  ⟨⟨['0', '0', '0', '0'], .notWholeChunks 4, rfl⟩, ⟨_, rfl⟩, ⟨State.reset, rfl⟩, { at0 [] with status := .halted }, by decide⟩
theorem witness_LoadWithoutRoomIsAllocationFailure :
    (∃ text codes, parseText text = .ok codes) ∧ (∃ s : State, s.status = .idle) ∧
    ∃ s : State, s.status = .faulted ∧ s.status ≠ .idle :=
  ⟨⟨['0', '1', 'B', '0', '0'], [0, 1, 0xB, 0, 0], rfl⟩, ⟨State.reset, rfl⟩, { at0 [] with status := .faulted }, by decide⟩
theorem witness_ResetEntersChunkZero :
    (∃ s : State, 0 < s.chunkCount ∧ s.status = .halted) ∧ ∃ s : State, s.chunkCount = 0 ∧ s.status = .idle :=
  ⟨⟨{ at0 [] with status := .halted }, by decide⟩, State.reset, by decide⟩
theorem witness_StepRunsDecodedInstruction :
    (∃ s : State, s.status = .running ∧ 5 ≤ s.slot.toNat) ∧
    ∃ (s : State) (c : Code), s.status = .running ∧ s.slot.toNat ≤ 4 ∧ s.cur < s.chunkCount ∧
      s.pm[5 * s.cur + s.slot.toNat]? = some c :=
  ⟨⟨{ at0 [] with slot := 5 }, by decide⟩, { at0 [] with slot := 4, cur := 1 }, 0, by decide⟩
theorem witness_StepEnabledExactlyWhileRunning :
    (∃ s : State, s.status = .running) ∧ ∃ s : State, s.status ≠ .running ∧ (observe s).isSome = true :=
  ⟨⟨at0 [], by decide⟩, { at0 [] with status := .halted }, by decide⟩
theorem witness_ReadPushesByteOrZero :
    (∃ (s : State) (rest : List Byte), s.inReady = true ∧ s.params.stackCap ≠ some s.stk.length ∧ s.inq = 0xFF :: rest) ∧
    ∃ s : State, s.inReady = true ∧ s.params.stackCap ≠ some s.stk.length ∧ s.inq = [] :=
  ⟨⟨at0 [] [0xFF], [], by decide⟩, { at0 [] with params := { stackCap := some 1 } }, by decide⟩
theorem witness_ReadAtCapacityConsumesNothing : ∃ s : State, s.inReady = true ∧ s.params.stackCap = some s.stk.length :=
  ⟨full0 [], by decide⟩
theorem witness_HeldReadWaitsForHost :
    ∃ s : State, s.status = .running ∧ s.slot.toNat ≤ 4 ∧ fetch s = some .read ∧ s.inReady = false :=
  ⟨{ at0 [] with slot := 4, cur := 1, inReady := false }, by decide⟩
theorem witness_OpcodeOnStack :
    (∃ (s : State) (a : Nat) (rest : List Nat), s.stk = a :: rest) ∧
    (∃ (s : State) (a b : Nat) (rest : List Nat), s.stk = a :: b :: rest) ∧
    (∃ s : State, s.stk = []) ∧ (∃ s : State, s.stk ≠ [] ∧ s.stk.length < 2) ∧ ∃ s : State, 2 ≤ s.stk.length :=
  ⟨⟨at0 [0], 0, [], rfl⟩, ⟨at0 [0, 0xFFFFFFFF], 0, _, [], rfl⟩, ⟨at0 [], rfl⟩, ⟨at0 [1], by decide⟩, at0 [1, 2], by decide⟩
theorem witness_WriteEmitsLowByte : (∃ (s : State) (rest : List Nat), s.stk = 256 :: rest) ∧ ∃ s : State, s.stk = [] :=
  ⟨⟨at0 [256], [], rfl⟩, at0 [], rfl⟩
theorem witness_OnlyReadAndWriteTouchChannels :
    ∃ t, exec .inc (at0 [1]) = .next t ∧ Instr.inc ≠ .read ∧ Instr.inc ≠ .write := ⟨_, rfl, by decide, by decide⟩
theorem witness_DropRemovesTop : (∃ (s : State) (a : Nat), s.stk = a :: []) ∧ ∃ s : State, s.stk = [] :=
  ⟨⟨at0 [5], 5, rfl⟩, at0 [], rfl⟩
theorem witness_DupCopiesTop :
    (∃ (s : State) (a : Nat) (rest : List Nat), s.stk = a :: rest ∧ s.params.stackCap ≠ some s.stk.length) ∧
    (∃ s : State, s.stk ≠ [] ∧ s.params.stackCap = some s.stk.length) ∧ ∃ s : State, s.stk = [] :=
  ⟨⟨{ at0 [7] with params := { stackCap := some 2 } }, 7, [], rfl, by decide⟩, ⟨full0 [7], by decide⟩, full0 [], rfl⟩
theorem witness_SwapExchangesTopTwo :
    (∃ (s : State) (a b : Nat), s.stk = a :: b :: []) ∧ ∃ s : State, s.stk.length = 1 ∧ s.stk.length < 2 :=
  ⟨⟨at0 [1, 2], 1, 2, rfl⟩, at0 [1], by decide⟩
theorem witness_RotbMovesTopToBottom :
    (∃ (s : State) (a : Nat) (rest : List Nat), s.stk = a :: rest) ∧
    (∃ s : State, s.stk = [] ∧ s.params.rotEmpty = .fault) ∧ ∃ s : State, s.stk = [] ∧ s.params.rotEmpty = .nop :=
  ⟨⟨at0 [9], 9, [], rfl⟩, ⟨at0 [], by decide⟩, { at0 [] with params := { rotEmpty := .nop } }, by decide⟩
theorem witness_RotbDepthTimesRestoresStack : ∃ s : State, s.stk ≠ [] := ⟨at0 [1, 2, 3], by decide⟩
theorem witness_ShufAdmitsEveryOrder : ∃ (s : State) (l : List Nat), l.Perm s.stk ∧ l ≠ s.stk :=
  ⟨at0 [1, 2, 3], [3, 1, 2], by decide⟩
theorem witness_InversePairsRestoreStack :
    (∃ s : State, s.stk ≠ [] ∧ s.params.stackCap ≠ some s.stk.length) ∧ (∃ s : State, 2 ≤ s.stk.length) ∧
    (∃ (s : State) (b : Byte) (rest : List Byte), s.inq = b :: rest ∧ s.inReady = true ∧
      s.params.stackCap ≠ some s.stk.length) ∧
    ∃ s : State, s.inq = [] ∧ s.inReady = true ∧ s.params.stackCap ≠ some s.stk.length :=
  ⟨⟨at0 [4], by decide⟩, ⟨at0 [1, 2], by decide⟩, ⟨at0 [9] [0x2A], 0x2A, [], by decide⟩, at0 [9], by decide⟩
theorem witness_IncAddsOneModuloWidth : (∃ (s : State) (a : Nat), s.stk = [a] ∧ a + 1 = 2 ^ s.params.width) ∧
    ∃ s : State, s.stk = [] := ⟨⟨at0 [0xFFFFFFFF], _, rfl, by decide⟩, at0 [], rfl⟩
theorem witness_DecSaturatesAtZero : (∃ s : State, s.stk = [0]) ∧ (∃ s : State, s.stk = [1]) ∧ ∃ s : State, s.stk = [] :=
  ⟨⟨at0 [0], rfl⟩, ⟨at0 [1], rfl⟩, at0 [], rfl⟩
theorem witness_AddSumsTopTwoModuloWidth :
    (∃ (s : State) (a b : Nat), s.stk = [a, b] ∧ b + a = 2 ^ s.params.width) ∧ ∃ s : State, s.stk.length = 1 :=
  ⟨⟨at0 [1, 0xFFFFFFFF], _, _, rfl, by decide⟩, at0 [3], rfl⟩
theorem witness_AbsdIsExactDifference :
    (∃ (s : State) (a b : Nat), s.stk = [a, b] ∧ b = a) ∧ (∃ (s : State) (a b : Nat), s.stk = [a, b] ∧ a < b) ∧
    ∃ s : State, s.stk.length = 1 :=
  ⟨⟨at0 [5, 5], 5, 5, rfl, rfl⟩, ⟨at0 [3, 10], 3, 10, rfl, by decide⟩, at0 [1], rfl⟩
theorem witness_SkipfSkipsOnFirstVisit : (∃ s : State, s.ev = false) ∧ ∃ s : State, s.ev = true :=
  ⟨⟨at0 [], rfl⟩, { at0 [] with ev := true }, rfl⟩
theorem witness_SkipvSkipsOnRevisit : (∃ s : State, s.ev = true) ∧ ∃ s : State, s.ev = false :=
  ⟨⟨{ at0 [] with ev := true }, rfl⟩, at0 [], rfl⟩
theorem witness_FIsNopOrRefused : (∃ s : State, s.params.fMode = .nop) ∧ ∃ s : State, s.params.fMode = .refuse :=
  ⟨⟨at0 [], rfl⟩, { at0 [] with params := { fMode := .refuse } }, rfl⟩
theorem witness_ControlOpcodesReadOnlySnapshot :
    ∃ s s' : State, s'.ev = s.ev ∧ s'.params.fMode = s.params.fMode ∧ s'.slot = s.slot ∧ s'.status = s.status ∧
      s'.stk ≠ s.stk := ⟨at0 [1], at0 [2], by decide⟩
theorem witness_EndOfChunkMarksThenJumps :
    ∃ (s : State) (t : Nat) (rest : List Nat), s.status = .running ∧ 5 ≤ s.slot.toNat ∧ s.cur < s.chunkCount ∧
      s.vis.length = s.chunkCount ∧ s.stk = t :: rest ∧ t < s.chunkCount :=
  ⟨{ at0 [1, 7] with slot := 7, params := { markOnReturn := false } }, 1, [7], by decide⟩
theorem witness_EndOfChunkFaultsAfterMark :
    (∃ s : State, s.status = .running ∧ 5 ≤ s.slot.toNat ∧ s.cur < s.chunkCount ∧ s.stk = []) ∧
    ∃ (s : State) (t : Nat), s.status = .running ∧ 5 ≤ s.slot.toNat ∧ s.cur < s.chunkCount ∧ s.stk = [t] ∧
      t = s.chunkCount :=
  ⟨⟨{ at0 [] with slot := 7 }, by decide⟩, { at0 [2] with slot := 5 }, 2, by decide⟩
theorem witness_JumpTargetIsNeverReduced :
    (∃ (s : State) (t : Nat), s.Inv ∧ s.status = .running ∧ 5 ≤ s.slot.toNat ∧ s.stk = [t] ∧ t + 1 = s.chunkCount) ∧
    (∃ (s : State) (t : Nat), s.Inv ∧ s.status = .running ∧ 5 ≤ s.slot.toNat ∧ s.stk = [t] ∧ t = s.chunkCount) ∧
    ∃ (s t : State), s.slot.toNat = 4 ∧ exec .skipf s = .next t :=
  ⟨⟨_, 1, inv_end0 1 (.inl rfl), by decide⟩, ⟨_, 2, inv_end0 2 (.inr rfl), by decide⟩, { at0 [] with slot := 4 }, _, rfl, rfl⟩
theorem witness_JumpLeavesTargetOnStack :
    ∃ s t : State, s.status = .running ∧ 5 ≤ s.slot.toNat ∧ step s = .next t ∧ t.status = .running :=
  ⟨{ at0 [1, 7] with slot := 5 }, _, rfl, by decide, rfl, rfl⟩
theorem witness_SelfJumpSeesOwnMark :
    ∃ (s : State) (rest : List Nat), s.status = .running ∧ 5 ≤ s.slot.toNat ∧ s.cur < s.chunkCount ∧
      s.vis.length = s.chunkCount ∧ s.stk = s.cur :: rest ∧ (s.slot = 7 → s.params.markOnReturn = true) :=
  ⟨{ at0 [0] with slot := 7 }, [], by decide⟩
theorem witness_SequencerSeesOnlyTop :
    ∃ s s' t t' : State, s.status = .running ∧ s'.status = .running ∧ 5 ≤ s.slot.toNat ∧ s'.params = s.params ∧
      s'.pm = s.pm ∧ s'.vis = s.vis ∧ s'.cur = s.cur ∧ s'.slot = s.slot ∧ s'.stk.head? = s.stk.head? ∧ s'.stk ≠ s.stk ∧
      step s = .next t ∧ step s' = .next t' :=
  ⟨{ at0 [1, 7] with slot := 5 }, { at0 [1] with slot := 5 }, _, _, rfl, rfl, by decide, rfl, rfl, rfl, rfl, rfl, rfl,
    by decide, rfl, rfl⟩
theorem witness_MarkOnReturnMattersOnlyAfterRet : ∃ s t : State, s.slot ≠ 7 ∧ step s = .next t :=
  ⟨{ at0 [1] with slot := 5 }, _, by decide, rfl⟩
theorem witness_RaiseWritesStatusAndRecord :
    (∃ (s : State) (op : Code), s.slot.toNat ≤ 4 ∧ s.cur < s.chunkCount ∧ s.pm[5 * s.cur + s.slot.toNat]? = some op) ∧
    ∃ s : State, 5 ≤ s.slot.toNat :=
  ⟨⟨{ at0 [] with slot := 4 }, 6, by decide⟩, { at0 [] with slot := 5 }, by decide⟩
theorem witness_ExitStatusTellsSuccessFromFault :
    (∃ s : State, s.params.wf = true ∧ s.status = .halted) ∧ (∃ s : State, s.params.wf = true ∧ s.status = .faulted) ∧
    (∃ s : State, s.params.wf = true ∧ s.status = .idle ∧ s.frec.fcode = .loadError) ∧
    (∃ s : State, s.params.wf = true ∧ s.status = .idle ∧ s.frec.fcode ≠ .loadError) ∧
    ∃ s : State, s.params.wf = true ∧ s.status = .running :=
  ⟨⟨{ at0 [] with status := .halted }, by decide⟩, ⟨{ at0 [] with status := .faulted }, by decide⟩,
    ⟨refuseLoad State.reset, rfl, rfl, rfl⟩, ⟨State.reset, by decide⟩, at0 [], by decide⟩
theorem witness_FaultsArePrecise :
    (∃ s t : State, s.status = .running ∧ s.slot.toNat ≤ 4 ∧ step s = .next t ∧ t.status = .faulted) ∧
    ∃ s t : State, s.status = .running ∧ 5 ≤ s.slot.toNat ∧ step s = .next t ∧ t.status = .faulted :=
  ⟨⟨at0 [], _, rfl, by decide, rfl, rfl⟩, { at0 [2] with slot := 5 }, _, rfl, by decide, rfl, rfl⟩
theorem witness_UnderflowExactlyBelowMinDepth :
    (∃ s t : State, s.status = .running ∧ exec .swap s = .next t ∧ s.stk.length < minDepth s.params .swap) ∧
    ∃ s t : State, s.status = .running ∧ exec .swap s = .next t ∧ s.stk.length = minDepth s.params .swap :=
  ⟨⟨at0 [1], _, rfl, rfl, by decide⟩, at0 [1, 2], _, rfl, rfl, by decide⟩
theorem witness_DepthChangesAsTabled :
    (∃ s t : State, s.status = .running ∧ exec .read s = .next t ∧ t.status ≠ .faulted ∧ s.inReady = true) ∧
    (∃ s t : State, s.status = .running ∧ exec .dup s = .next t ∧ t.status = .faulted) ∧
    ∃ s t : State, s.status = .running ∧ exec .read s = .next t ∧ s.inReady = false :=
  ⟨⟨at0 [], _, rfl, rfl, by decide, rfl⟩, ⟨full0 [1], _, rfl, rfl, rfl⟩, { at0 [] with inReady := false }, _, rfl, rfl, rfl⟩
theorem witness_OpcodesLeaveSequencerStateAlone :
    (∃ s t : State, exec .add s = .next t ∧ t.status = s.status) ∧ ∃ s t : State, exec .add s = .next t ∧ t.status ≠ s.status :=
  ⟨⟨at0 [1, 2], _, rfl, rfl⟩, at0 [1], _, rfl, by decide⟩
theorem witness_VisitedFlagsOnlySetAtEndOfChunk :
    (∃ s t : State, step s = .next t ∧ t.vis[0]? ≠ s.vis[0]?) ∧
    (∃ s t : State, step s = .next t ∧ s.vis[1]? = some true) ∧ ∃ s : State, 1 < s.chunkCount :=
  ⟨⟨{ at0 [1] with slot := 5 }, _, rfl, by decide⟩, ⟨{ at0 [1] with slot := 5, vis := [false, true] }, _, rfl, by decide⟩,
    at0 [], by decide⟩
theorem witness_SnapshotReadOnlyAtChunkEntry :
    (∃ s t : State, s.status = .running ∧ step s = .next t ∧ s.slot.toNat = 4) ∧
    ∃ s t : State, s.status = .running ∧ step s = .next t ∧ s.slot.toNat = 5 ∧ t.status = .running :=
  ⟨⟨{ at0 [1] with slot := 4 }, _, rfl, rfl, rfl⟩, { at0 [0] with slot := 5 }, _, rfl, rfl, rfl, rfl⟩
theorem witness_SlotAdvancesByOneUnlessOverridden :
    (∃ s t : State, s.status = .running ∧ s.inReady = true ∧ exec .read s = .next t ∧ t.status ≠ .faulted) ∧
    (∃ s t : State, s.status = .running ∧ exec .drop s = .next t ∧ t.status = .faulted) ∧
    ∃ s t u v : State, s.status = .running ∧ exec .ret s = .next t ∧ exec .halt s = .next u ∧ exec .skipv s = .next v :=
  ⟨⟨at0 [], _, rfl, rfl, rfl, by decide⟩, ⟨at0 [], _, rfl, rfl, rfl⟩, at0 [], _, _, _, rfl, rfl, rfl, rfl⟩
theorem witness_RunningEndsOnlyByHaltOrFault :
    (∃ s t : State, s.status = .running ∧ step s = .next t ∧ t.status = .halted) ∧
    (∃ s t : State, s.status = .running ∧ step s = .next t ∧ t.status = .faulted) ∧
    ∃ s t : State, s.status = .running ∧ step s = .next t ∧ t.cur ≠ s.cur :=
  ⟨⟨{ at0 [] with slot := 2 }, _, rfl, rfl, rfl⟩, ⟨at0 [], _, rfl, rfl, rfl⟩, { at0 [1] with slot := 6 }, _, rfl, rfl, by decide⟩
theorem witness_ResetMeetsInvariant : ∃ p : Params, p.wf = true ∧ p.width = 8 := ⟨{ width := 8 }, by decide⟩
theorem witness_StepKeepsInvariant : ∃ s t : State, s.Inv ∧ step s = .next t := ⟨at0 [1, 7], _, inv_at0, rfl⟩
theorem witness_HostMovesKeepInvariant : ∃ s : State, s.Inv := ⟨at0 [1, 7], inv_at0⟩
theorem reachable_running : Reachable (load (.text ['0', '1', 'B', '0', '0']) [] State.reset) :=
  .load _ _ (.powerUp _ (by decide))
theorem witness_ReachableStatesMeetInvariant : ∃ s : State, Reachable s ∧ s.status = .running :=
  ⟨_, reachable_running, by decide⟩
theorem witness_OutOfRangeIsNeverRaised : ∃ s : State, Reachable s ∧ s.status = .running ∧ s.slot.toNat ≤ 4 :=
  ⟨_, reachable_running, by decide⟩
theorem witness_RunsAppendOutputAndConsumeInput : ∃ s t : State, Sys2Proof.core.run 1 s = .next t :=
  ⟨at0 [1], _, rfl⟩
theorem witness_CapacityOnlyAddsAllocationFailure :
    ∃ s t : State, s.params.stackCap = some 1 ∧ Sys2Proof.core.run 1 s = .next t ∧
      ¬ (t.status = .faulted ∧ t.frec.fcode = .allocationFailure) :=
  ⟨full0 [1], _, rfl, rfl, by decide⟩
theorem witness_FModeMattersOnlyToF : ∃ s t : State, Instr.inc ≠ .nop ∧ exec .inc s = .next t :=
  ⟨at0 [1], _, by decide, rfl⟩

end Sys2Proof.Tests
end

/-! The state family: what one opcode does to the stack and to the depth tables of R24, the invariant over steps and over
every reachable state, and the machine without a stack capacity. -/

namespace Sys2Proof.Machine

/-! ## What one opcode does -/

/-- What an opcode that succeeds leaves on the stack, in SLOT and in the count of draws. -/
structure Completes (i : Instr) (s : State) (stk : List Nat) (slot : Slot) (draws : Nat) : Prop where
  enough : minDepth s.params i ≤ s.stk.length
  answered : i = .read → s.inReady = true
  depth : (stk.length : Int) = s.stk.length + depthChange i
  room : depthChange i = 1 → s.params.stackCap ≠ some s.stk.length
  values : s.params.wf = true → (∀ v ∈ s.stk, v < 2 ^ s.params.width) → ∀ v ∈ stk, v < 2 ^ s.params.width
  forward : s.slot.toNat ≤ 4 → s.slot.toNat ≤ slot.toNat
  drawn : i ≠ .shuf → draws = s.draws

/-- The states an opcode step can answer, each with the condition it is answered under. -/
inductive OpcodeOutcome (i : Instr) (s : State) : State → Prop where
  | underflow {n : Nat} : n ≤ 2 → s.stk.length < minDepth s.params i → OpcodeOutcome i s (raise .stackUnderflow n s)
  | full : minDepth s.params i ≤ s.stk.length → atCap s = true → OpcodeOutcome i s (raise .allocationFailure 0 s)
  | refused : i = .nop → OpcodeOutcome i s (raise .refused 0xF s)
  | held : i = .read → s.inReady = false → OpcodeOutcome i s s
  | halted : i = .halt → OpcodeOutcome i s (s.withStatus .halted)
  | completed {stk : List Nat} {slot : Slot} {draws : Nat} (inq outq : List Byte) :
      Completes i s stk slot draws → OpcodeOutcome i s (opcodeDone s stk slot inq outq draws)

theorem depthChange_le_one (i : Instr) : depthChange i ≤ 1 := by cases i <;> decide

theorem slot_le_succ {x : Slot} (h : x.toNat ≤ 4) : x.toNat ≤ (x + 1).toNat := by bv_omega

theorem slot_le_skip {x : Slot} (h : x.toNat ≤ 4) (b : Bool) : x.toNat ≤ (x + if b then 2 else 1).toNat := by
  cases b
  · exact slot_le_succ h
  · simp only [if_true]
    bv_omega

/-- R7: `W >= 8`, so a byte and every small constant is a stack value. -/
theorem byteRange_le_of_wf {p : Params} (h : p.wf = true) : 256 ≤ 2 ^ p.width := by
  have hw : 8 ≤ p.width := by
    simp only [Params.wf, Bool.and_eq_true, decide_eq_true_eq] at h
    exact h.1
  exact Nat.pow_le_pow_right (n := 2) (by decide) hw

theorem answerValue_lt (a : InAnswer) : answerValue a < 256 := by
  cases a with
  | byte b => exact zextByte_lt b
  | eof => decide

/-- `D` leaves the stack's own values, in some order. -/
theorem shuffled_perm (pick : Nat → Nat) (stk : List Nat) : (permute (drawPerm pick stk.length) stk).Perm stk := by
  rw [permute_drawPerm]
  exact pickAll_perm pick _ stk

/-- An opcode that ends in `finish` and takes no draw completes where the stack it leaves is as the tables say. -/
theorem completes_of_finish {i : Instr} {s : State} {stk : List Nat} (enough : minDepth s.params i ≤ s.stk.length)
    (answered : i = .read → s.inReady = true) (depth : (stk.length : Int) = s.stk.length + depthChange i)
    (room : depthChange i = 1 → s.params.stackCap ≠ some s.stk.length)
    (values : s.params.wf = true → (∀ v ∈ s.stk, v < 2 ^ s.params.width) → ∀ v ∈ stk, v < 2 ^ s.params.width) :
    Completes i s stk (s.slot + 1) s.draws :=
  ⟨enough, answered, depth, room, values, slot_le_succ, fun _ => rfl⟩

/-- An opcode that replaces the top of the stack by a value in range. -/
theorem mapTop_outcome {i : Instr} {s t : State} {f : Nat → Nat} (hmin : minDepth s.params i = 1) (hd : depthChange i = 0)
    (hi : i ≠ .read) (hf : ∀ a, a < 2 ^ s.params.width → f a < 2 ^ s.params.width) (h : mapTop f s = .next t) :
    OpcodeOutcome i s t := by
  rcases mapTop_cases f s with ⟨hs, he⟩ | ⟨a, rest, hs, he⟩ <;> rw [he] at h <;> cases h
  · exact .underflow (by decide) (by simp [hmin, hs])
  · refine .completed s.inq s.outq (completes_of_finish ?_ (absurd · hi) ?_ ?_ ?_)
    · simp [hmin, hs]
    · simp [hd, hs]
    · simp [hd]
    · intro _ hv
      simp only [hs, State.withStk_stk, List.forall_mem_cons] at hv ⊢
      exact ⟨hf a hv.1, hv.2⟩

/-- An opcode that replaces the two values on top by one in range. -/
theorem combineTop_outcome {i : Instr} {s t : State} {f : Nat → Nat → Nat} (hmin : minDepth s.params i = 2)
    (hd : depthChange i = -1) (hi : i ≠ .read)
    (hf : ∀ a b, a < 2 ^ s.params.width → b < 2 ^ s.params.width → f a b < 2 ^ s.params.width)
    (h : combineTop f s = .next t) : OpcodeOutcome i s t := by
  rcases combineTop_cases f s with ⟨hs, he⟩ | ⟨a, b, rest, hs, he⟩ <;> rw [he] at h <;> cases h
  · exact .underflow (by decide) (by omega)
  · refine .completed s.inq s.outq (completes_of_finish ?_ (absurd · hi) ?_ ?_ ?_)
    · simp [hmin, hs]
    · simp only [hd, hs, State.withStk_stk, List.length_cons]
      omega
    · simp [hd]
    · intro _ hv
      simp only [hs, State.withStk_stk, List.forall_mem_cons] at hv ⊢
      exact ⟨hf a b hv.1 hv.2.1, hv.2.2⟩

/-- A control opcode that succeeds moves SLOT and nothing else. -/
theorem control_outcome {i : Instr} {s : State} {slot : Slot} (hmin : minDepth s.params i = 0) (hd : depthChange i = 0)
    (hi : i ≠ .read) (hslot : s.slot.toNat ≤ 4 → s.slot.toNat ≤ slot.toNat) : OpcodeOutcome i s (s.withSlot slot) :=
  .completed s.inq s.outq ⟨by simp [hmin], (absurd · hi), by simp [hd], by simp [hd], fun _ hv => hv, hslot, fun _ => rfl⟩

theorem read_outcome {s t : State} (h : exec .read s = .next t) : OpcodeOutcome .read s t := by
  simp only [exec, execRead] at h
  cases hr : s.inReady with
  | false =>
    simp only [hr, Bool.false_eq_true, if_false] at h
    cases h
    exact .held rfl hr
  | true =>
    cases hc : atCap s with
    | true =>
      simp only [hr, hc, if_true] at h
      cases h
      exact .full (Nat.zero_le _) hc
    | false =>
      have hroom : s.params.stackCap ≠ some s.stk.length := fun h' => by simp [atCap_iff.mpr h'] at hc
      have done (a : InAnswer) : Completes .read s (answerValue a :: s.stk) (s.slot + 1) s.draws := by
        refine completes_of_finish (Nat.zero_le _) (fun _ => hr) (by simp [depthChange]) (fun _ => hroom) ?_
        intro hwf hv
        exact List.forall_mem_cons.mpr ⟨(answerValue_lt a).trans_le (byteRange_le_of_wf hwf), hv⟩
      simp only [hr, hc, Bool.false_eq_true, if_false, if_true] at h
      rcases inRead_cases s with ⟨-, hin⟩ | ⟨b, rest, -, hin⟩ <;> rw [hin] at h <;> cases h
      · exact .completed s.inq s.outq (done .eof)
      · exact .completed rest s.outq (done (.byte b))

theorem dup_outcome {s t : State} (h : exec .dup s = .next t) : OpcodeOutcome .dup s t := by
  simp only [exec, execDup] at h
  rcases hs : s.stk with _ | ⟨a, rest⟩ <;> rw [hs] at h
  · cases h
    exact .underflow (by decide) (by simp [hs, minDepth])
  · have hmin : minDepth s.params .dup ≤ s.stk.length := by simp [hs, minDepth]
    rcases pushFinish_cases s a with ⟨hcap, hp⟩ | ⟨hroom, hp⟩ <;> simp only [hp] at h <;> cases h
    · exact .full hmin (atCap_iff.mpr hcap)
    · refine .completed s.inq s.outq (completes_of_finish hmin (by simp) (by simp [depthChange]) (fun _ => hroom) ?_)
      intro _ hv
      exact List.forall_mem_cons.mpr ⟨hv a (by simp [hs]), hv⟩

/-- Every state that an opcode step answers is one of these: `exec_next_cases` with the tables of R24. -/
theorem exec_outcome {i : Instr} {s t : State} (h : exec i s = .next t) : OpcodeOutcome i s t := by
  cases i with
  | read => exact read_outcome h
  | write =>
    simp only [exec, execWrite] at h
    rcases hs : s.stk with _ | ⟨a, rest⟩ <;> rw [hs] at h <;> cases h
    · exact .underflow (by decide) (by simp [hs, minDepth])
    · refine .completed s.inq (s.outq ++ [lowByte a]) (completes_of_finish ?_ (by simp) ?_ (by simp [depthChange]) ?_)
      · simp [hs, minDepth]
      · simp [hs, depthChange]
      · intro _ hv
        exact fun v hmem => hv v (by rw [hs]; exact List.mem_cons_of_mem a hmem)
  | drop =>
    simp only [exec, execDrop] at h
    rcases hs : s.stk with _ | ⟨a, rest⟩ <;> rw [hs] at h <;> cases h
    · exact .underflow (by decide) (by simp [hs, minDepth])
    · refine .completed s.inq s.outq (completes_of_finish ?_ (by simp) ?_ (by simp [depthChange]) ?_)
      · simp [hs, minDepth]
      · simp [hs, depthChange]
      · intro _ hv
        exact fun v hmem => hv v (by rw [hs]; exact List.mem_cons_of_mem a hmem)
  | dup => exact dup_outcome h
  | swap =>
    simp only [exec, execSwap] at h
    rcases hs : s.stk with _ | ⟨a, _ | ⟨b, rest⟩⟩ <;> rw [hs] at h <;> cases h
    · exact .underflow (by decide) (by simp [hs, minDepth])
    · exact .underflow (by decide) (by simp [hs, minDepth])
    · refine .completed s.inq s.outq (completes_of_finish ?_ (by simp) ?_ (by simp [depthChange]) ?_)
      · simp [hs, minDepth]
      · simp [hs, depthChange]
      · intro _ hv
        simp only [hs, State.withStk_stk, List.forall_mem_cons] at hv ⊢
        exact ⟨hv.2.1, hv.1, hv.2.2⟩
  | inc => exact mapTop_outcome rfl rfl (by simp) (fun a _ => addW_lt _ a 1) h
  | dec => exact mapTop_outcome rfl rfl (by simp) (fun a ha => (subSat_le a 1).trans_lt ha) h
  | add => exact combineTop_outcome rfl rfl (by simp) (fun a b _ _ => addW_lt _ b a) h
  | absd =>
    exact combineTop_outcome rfl rfl (by simp) (fun a b ha hb => (absdiff_le_max a b).trans_lt (max_lt ha hb)) h
  | skipf => cases h; exact control_outcome rfl rfl (by simp) (slot_le_skip · _)
  | skipv => cases h; exact control_outcome rfl rfl (by simp) (slot_le_skip · _)
  | rotb =>
    simp only [exec, execRotb] at h
    rcases hs : s.stk with _ | ⟨a, rest⟩ <;> rw [hs] at h
    · cases hm : s.params.rotEmpty <;> rw [hm] at h <;> cases h
      · exact .underflow (by decide) (by simp [hs, minDepth, hm])
      · exact .completed s.inq s.outq
          (completes_of_finish (by simp [minDepth, hm]) (by simp) (by simp [hs, depthChange]) (by simp [depthChange]) (by simp))
    · cases h
      refine .completed s.inq s.outq (completes_of_finish ?_ (by simp) ?_ (by simp [depthChange]) ?_)
      · simp only [hs, minDepth, List.length_cons]
        split <;> omega
      · simp [hs, depthChange]
      · intro _ hv
        exact fun v hmem => hv v (by rw [hs]; exact (List.perm_append_singleton a rest).mem_iff.mp hmem)
  | ret => cases h; exact control_outcome rfl rfl (by simp) (fun h4 => h4.trans (by decide))
  | halt => cases h; exact .halted rfl
  | shuf =>
    cases h
    have hperm := shuffled_perm (Config.freePick s.draws) s.stk
    refine .completed s.inq s.outq ⟨Nat.zero_le _, by simp, ?_, by simp [depthChange], ?_, slot_le_succ, by simp⟩
    · simp [hperm.length_eq, depthChange]
    · exact fun _ hv v hmem => hv v (hperm.mem_iff.mp hmem)
  | nop =>
    simp only [exec, execNop] at h
    cases hm : s.params.fMode <;> rw [hm] at h <;> cases h
    · exact control_outcome rfl rfl (by simp) slot_le_succ
    · exact .refused rfl

/-! ## The invariant, over a step -/

/-- The parts of `State.Inv` that hold in every status alike. -/
structure State.Shape (s : State) : Prop where
  legal : s.params.wf = true
  wholeChunks : s.pm.length % 5 = 0
  oneFlagPerChunk : s.vis.length = s.chunkCount
  valuesInRange : ∀ v ∈ s.stk, v < 2 ^ s.params.width
  withinCap : ∀ cap, s.params.stackCap = some cap → s.stk.length ≤ cap
  curInRange : s.cur < 2 ^ s.params.width

theorem State.Inv.shape {s : State} (h : s.Inv) : s.Shape :=
  ⟨h.legal, h.wholeChunks, h.oneFlagPerChunk, h.valuesInRange, h.withinCap, h.curInRange⟩

/-- The fault causes of R166 that a run can raise (R96: OutOfRange is none of them). -/
abbrev RunCause (c : FCode) : Prop :=
  c = .stackUnderflow ∨ c = .invalidJump ∨ c = .allocationFailure ∨ c = .refused

/-- A small constant is W bits wide. -/
theorem State.Shape.lt_of_le_byte {s : State} (h : s.Shape) {n : Nat} (hn : n < 256) : n < 2 ^ s.params.width :=
  hn.trans_le (byteRange_le_of_wf h.legal)

/-- The mark of R88 keeps the number of flags, and so everything that holds in every status. -/
theorem State.Shape.withVis {s : State} (h : s.Shape) {flags : List Bool} (hlen : flags.length = s.vis.length) :
    (s.withVis flags).Shape :=
  { h with oneFlagPerChunk := hlen.trans h.oneFlagPerChunk }

/-- A running machine of this shape, at a chunk of the program and with that chunk's flag in EV, meets the invariant. -/
theorem State.Shape.inv_running {s : State} (h : s.Shape) (hrun : s.status = .running) (hcur : s.cur < s.chunkCount)
    (hev : s.vis[s.cur]? = some s.ev) (hrec : s.frec = .zero) : s.Inv :=
  { h with
    fchunkInRange := by simp [hrec, FaultRecord.zero]
    finfoInRange := by simp [hrec, FaultRecord.zero]
    curInStore := fun _ => hcur
    snapshot := fun _ => hev
    noRecord := fun _ => hrec
    haltedAtHalt := by simp [hrun]
    faultPlace := by simp [hrun]
    faultCause := by simp [hrun]
    idleCause := by simp [hrun]
    idleUnloaded := by simp [hrun] }

/-- R174: a fault of a possible cause, raised in a machine of this shape. -/
theorem State.Shape.inv_raise {s : State} (h : s.Shape) {c : FCode} {info : Nat} (hc : RunCause c)
    (hinfo : info < 2 ^ s.params.width) : (raise c info s).Inv :=
  { h with
    fchunkInRange := h.curInRange
    finfoInRange := hinfo
    curInStore := by simp
    snapshot := by simp
    noRecord := by simp
    haltedAtHalt := by simp
    faultPlace := fun _ => ⟨rfl, rfl⟩
    faultCause := fun _ => hc
    idleCause := by simp
    idleUnloaded := by simp }

/-- What an opcode that completes leaves on the stack is of the same shape. -/
theorem State.Shape.opcodeDone {s : State} (h : s.Shape) {i : Instr} {stk : List Nat} {slot : Slot} {draws : Nat}
    (hc : Completes i s stk slot draws) (inq outq : List Byte) : (opcodeDone s stk slot inq outq draws).Shape :=
  { h with
    valuesInRange := hc.values h.legal h.valuesInRange
    withinCap := by
      intro cap hcap
      have hle : s.stk.length ≤ cap := h.withinCap cap hcap
      have hdepth := hc.depth
      have hroom : depthChange i = 1 → s.stk.length ≠ cap := fun h1 he => hc.room h1 (by rw [he]; exact hcap)
      have := depthChange_le_one i
      show stk.length ≤ cap
      omega }

/-- R96: while RUNNING at one of the five slots, the Program Store answers the fetch. -/
theorem State.Inv.fetch_ne_none {s : State} (h : s.Inv) (hrun : s.status = .running) (h4 : s.slot.toNat ≤ 4) :
    fetch s ≠ none := by
  obtain ⟨c, hc⟩ := pmRead_isSome (h.curInStore hrun) h4
  simp [fetch, hc]

/-- An opcode of the program keeps the invariant. -/
theorem State.Inv.of_exec {s t : State} {i : Instr} (h : s.Inv) (hrun : s.status = .running) (h4 : s.slot.toNat ≤ 4)
    (hf : fetch s = some i) (he : exec i s = .next t) : t.Inv := by
  have hrec : s.frec = .zero := h.noRecord (.inl hrun)
  cases exec_outcome he with
  | @underflow n hn _ => exact h.shape.inv_raise (.inl rfl) (h.shape.lt_of_le_byte (by omega))
  | full => exact h.shape.inv_raise (.inr (.inr (.inl rfl))) (h.shape.lt_of_le_byte (by decide))
  | refused => exact h.shape.inv_raise (.inr (.inr (.inr rfl))) (h.shape.lt_of_le_byte (by decide))
  | held => exact h
  | halted hi =>
    subst hi
    exact { h.shape with
      fchunkInRange := h.fchunkInRange
      finfoInRange := h.finfoInRange
      curInStore := by simp
      snapshot := by simp
      noRecord := fun _ => hrec
      haltedAtHalt := fun _ => ⟨h4, hf⟩
      faultPlace := by simp
      faultCause := by simp
      idleCause := by simp
      idleUnloaded := by simp }
  | completed inq outq hc =>
    exact (h.shape.opcodeDone hc inq outq).inv_running hrun (h.curInStore hrun) (h.snapshot hrun) hrec

theorem markedFlags_eq (s : State) : markedFlags s = s.vis ∨ markedFlags s = s.vis.set s.cur true := by
  unfold markedFlags
  split
  · exact .inl rfl
  · exact .inr rfl

theorem markedFlags_length (s : State) : (markedFlags s).length = s.vis.length := by
  rcases markedFlags_eq s with h | h <;> simp [h]

/-- The end-of-chunk step keeps the invariant. -/
theorem State.Inv.of_endOfChunk {s t : State} (h : s.Inv) (hrun : s.status = .running) (he : endOfChunk s = .next t) :
    t.Inv := by
  rcases endOfChunk_next_cases he with ⟨c, info, flags, rfl, hflags, hc⟩ | ⟨x, rest, b, hs, hx, hb, rfl⟩
  · have hlen : flags.length = s.vis.length := by rcases hflags with hf | hf <;> simp [hf]
    have hshape := h.shape.withVis hlen
    rcases hc with ⟨rfl, rfl⟩ | ⟨rfl, htop⟩ | ⟨rfl, hout⟩
    · exact hshape.inv_raise (.inl rfl) (h.shape.lt_of_le_byte (by decide))
    · exact hshape.inv_raise (.inr (.inl rfl)) (h.valuesInRange info (List.mem_of_mem_head? htop))
    · have := h.curInStore hrun
      have := h.oneFlagPerChunk
      omega
  · have hshape : (enterChunk x b (s.withVis (markedFlags s))).Shape :=
      { h.shape.withVis (markedFlags_length s) with curInRange := h.valuesInRange x (by simp [hs]) }
    exact hshape.inv_running hrun hx hb (h.noRecord (.inl hrun))

/-- Settles O54: an opcode of the program, or the end-of-chunk step, keeps the invariant, and no other step is taken. -/
theorem stepKeepsInvariant : Obligations.StepKeepsInvariant := by
  intro s t h hstep
  obtain ⟨hrun, ⟨-, he⟩ | ⟨h4, i, hf, he⟩ | ⟨h4, hf, -⟩⟩ := step_next_cases hstep
  · exact h.of_endOfChunk hrun he
  · exact h.of_exec hrun h4 hf he
  · exact absurd hf (h.fetch_ne_none hrun h4)

/-! ## The invariant, over the states a run can reach -/

/-- R192: power-up with legal parameters. -/
theorem inv_powerUp {p : Params} (legal : p.wf = true) : (State.powerUp p).Inv where
  legal := legal
  wholeChunks := rfl
  oneFlagPerChunk := by simp [State.powerUp, State.chunkCount]
  valuesInRange := by simp [State.powerUp]
  withinCap := by simp [State.powerUp]
  curInRange := Nat.two_pow_pos _
  fchunkInRange := Nat.two_pow_pos _
  finfoInRange := Nat.two_pow_pos _
  curInStore := by simp [State.powerUp]
  snapshot := by simp [State.powerUp]
  noRecord := fun _ => rfl
  haltedAtHalt := by simp [State.powerUp]
  faultPlace := by simp [State.powerUp]
  faultCause := by simp [State.powerUp]
  idleCause := fun _ => .inl rfl
  idleUnloaded := fun _ => rfl

/-- R190: reset with a program of whole chunks, whatever the block did before. -/
theorem inv_applyReset_program {s : State} (legal : s.params.wf = true) (whole : s.pm.length % 5 = 0)
    (hN : 0 < s.chunkCount) (input : List Byte) : (applyReset input s).Inv := by
  rw [applyReset_program hN]
  exact State.Shape.inv_running
    { legal := legal
      wholeChunks := whole
      oneFlagPerChunk := List.length_replicate
      valuesInRange := by simp
      withinCap := by simp
      curInRange := Nat.two_pow_pos _ }
    rfl hN (by simp [hN]) rfl

theorem State.Inv.applyReset {s : State} (h : s.Inv) (input : List Byte) : (applyReset input s).Inv := by
  by_cases hN : 0 < s.chunkCount
  · exact inv_applyReset_program h.legal h.wholeChunks hN input
  · rw [applyReset_noProgram hN]
    exact h

/-- R167, R192: a recorded LoadError keeps the invariant of an IDLE block. -/
theorem State.Inv.record_loadError {s : State} (h : s.Inv) (hidle : s.status = .idle) :
    (s.withFrec (faultRecord .loadError 0 s)).Inv :=
  { h.shape with
    fchunkInRange := h.curInRange
    finfoInRange := Nat.two_pow_pos _
    curInStore := h.curInStore
    snapshot := h.snapshot
    noRecord := by simp [hidle]
    haltedAtHalt := by simp [hidle]
    faultPlace := by simp [hidle]
    faultCause := by simp [hidle]
    idleCause := fun _ => .inr rfl
    idleUnloaded := h.idleUnloaded }

theorem State.Inv.load {s : State} (h : s.Inv) (offer : LoadOffer) (input : List Byte) : (load offer input s).Inv := by
  rcases load_cases offer input s with ⟨t, codes, -, -, hN, h5, he⟩ | ⟨-, he⟩ | ⟨hidle, -, he⟩ | ⟨hidle, -, he⟩ <;> rw [he]
  · exact inv_applyReset_program (s := buildStore codes s) h.legal h5 hN input
  · exact h
  · exact h.record_loadError hidle
  · exact h.shape.inv_raise (.inr (.inr (.inl rfl))) (Nat.two_pow_pos _)

theorem State.Inv.withInReady {s : State} (h : s.Inv) (ready : Bool) : (s.withInReady ready).Inv := { h with }

/-- Settles O56, by induction on how the state is reached. -/
theorem reachableStatesMeetInvariant : Obligations.ReachableStatesMeetInvariant := by
  intro s hs
  induction hs with
  | powerUp p legal => exact inv_powerUp legal
  | load offer input _ ih => exact ih.load offer input
  | reset input _ ih => exact ih.applyReset input
  | answer ready _ ih => exact ih.withInReady ready
  | step _ hstep ih => exact stepKeepsInvariant _ _ ih hstep

/-! ## The machine without a stack capacity (D5) -/

/-- The same machine with `STACK_CAP = INF`. -/
abbrev State.uncapped (s : State) : State := s.withParams { s.params with stackCap := none }

/-- The state in which a step of finite capacity has run out of room. -/
abbrev OutOfRoom (s : State) : Prop := s.status = .faulted ∧ s.frec.fcode = .allocationFailure

/-- An opcode that comes to a push at capacity runs out of room. -/
theorem atCap_eq_false_of_exec {i : Instr} {s t : State} (h : exec i s = .next t) (ht : ¬ OutOfRoom t)
    (hi : i = .read ∧ s.inReady = true ∨ i = .dup ∧ s.stk ≠ []) : atCap s = false := by
  by_contra hc
  have hcap : atCap s = true := by simpa using hc
  refine ht ?_
  rcases hi with ⟨rfl, hr⟩ | ⟨rfl, hs⟩
  · simp only [exec, execRead, hr, hcap, if_true] at h
    cases h
    exact ⟨rfl, rfl⟩
  · obtain ⟨a, rest, hs⟩ := List.exists_cons_of_ne_nil hs
    simp only [exec, execDup, hs, pushFinish, hcap, if_true] at h
    cases h
    exact ⟨rfl, rfl⟩

/-- R88: the mark reads MARK_ON_RETURN and no other parameter. -/
theorem markVisited_withParams {s : State} {p : Params} (hp : p.markOnReturn = s.params.markOnReturn) :
    markVisited (s.withParams p) = (markVisited s).map (·.withParams p) := by
  rcases markVisited_cases s with ⟨h7, hm, he⟩ | ⟨hn, hcur, he⟩ | ⟨hn, hcur, he⟩ <;> rw [he]
  · exact if_pos ⟨h7, hp.trans hm⟩
  · rw [← hp] at hn
    exact (if_neg hn).trans (if_pos hcur)
  · rw [← hp] at hn
    exact (if_neg hn).trans (if_neg hcur.not_gt)

theorem visRead_withParams (s : State) (p : Params) (k : Nat) : visRead (s.withParams p) k = visRead s k := rfl

/-- R89: the jump reads no parameter. -/
theorem takeJump_withParams {s t : State} (p : Params) (h : takeJump s = .next t) :
    takeJump (s.withParams p) = .next (t.withParams p) := by
  unfold takeJump at h ⊢
  simp only [State.withParams_stk, State.withParams_chunkCount]
  rcases hs : s.stk with _ | ⟨x, rest⟩ <;> simp only [hs] at h ⊢
  · cases h
    rfl
  · by_cases hx : x < s.chunkCount
    · simp only [hx, if_true, visRead_withParams] at h ⊢
      cases hv : visRead s x <;> simp only [hv] at h ⊢ <;> cases h <;> rfl
    · simp only [hx, if_false] at h ⊢
      cases h
      rfl

theorem endOfChunk_withParams {s t : State} {p : Params} (hp : p.markOnReturn = s.params.markOnReturn)
    (h : endOfChunk s = .next t) : endOfChunk (s.withParams p) = .next (t.withParams p) := by
  unfold endOfChunk at h ⊢
  rw [markVisited_withParams hp]
  cases hm : markVisited s with
  | none =>
    rw [hm] at h
    cases h
    rfl
  | some marked =>
    rw [hm] at h
    exact takeJump_withParams p h

theorem step_eq_endOfChunk {s : State} (hrun : s.status = .running) (h5 : 5 ≤ s.slot.toNat) : step s = endOfChunk s := by
  rcases step_running hrun with ⟨-, he⟩ | ⟨h4, -⟩ | ⟨h4, -⟩
  · exact he
  · omega
  · omega

theorem step_eq_exec {s : State} {i : Instr} (hrun : s.status = .running) (hf : fetch s = some i) :
    step s = exec i s := by
  have h4 := slot_le_of_fetch hf
  rcases step_running hrun with ⟨h5, -⟩ | ⟨-, j, hj, he⟩ | ⟨-, hn, -⟩
  · omega
  · rw [he, Option.some.inj (hj.symm.trans hf)]
  · simp [hn] at hf

theorem step_eq_storeOutOfRange {s : State} (hrun : s.status = .running) (h4 : s.slot.toNat ≤ 4) (hf : fetch s = none) :
    step s = storeOutOfRange s := by
  rcases step_running hrun with ⟨h5, -⟩ | ⟨-, j, hj, -⟩ | ⟨-, -, he⟩
  · omega
  · simp [hf] at hj
  · exact he

/-- R7: no opcode changes a parameter. -/
theorem exec_params {i : Instr} {s t : State} (h : exec i s = .next t) : t.params = s.params := by
  cases exec_outcome h <;> rfl

theorem endOfChunk_params {s t : State} (h : endOfChunk s = .next t) : t.params = s.params := by
  rcases endOfChunk_next_cases h with ⟨c, info, flags, rfl, -⟩ | ⟨x, rest, b, -, -, -, rfl⟩ <;> rfl

/-- A step that does not run out of room is the step of the same machine with `STACK_CAP = INF`. -/
theorem step_uncapped {s t : State} (h : step s = .next t) (ht : ¬ OutOfRoom t) : step s.uncapped = .next t.uncapped := by
  obtain ⟨hrun, ⟨h5, he⟩ | ⟨-, i, hf, he⟩ | ⟨h4, hf, rfl⟩⟩ := step_next_cases h
  · have hstep : step s.uncapped = endOfChunk s.uncapped := step_eq_endOfChunk hrun h5
    rw [hstep, State.uncapped, State.uncapped, endOfChunk_params he]
    exact endOfChunk_withParams rfl he
  · have hstep : step s.uncapped = exec i s.uncapped := step_eq_exec hrun hf
    rw [hstep, State.uncapped, State.uncapped, exec_params he]
    exact exec_withParams rfl rfl (fun _ => rfl) (fun hi => (atCap_eq_false_of_exec he ht hi).symm) he
  · exact step_eq_storeOutOfRange (s := s.uncapped) hrun h4 hf

/-- A run goes on only from a RUNNING state, so a run that does not end out of room was never out of room. -/
theorem not_outOfRoom_of_run {s t : State} {k : Nat} (h : Sys2Proof.core.run k s = .next t) (ht : ¬ OutOfRoom t) :
    ¬ OutOfRoom s := by
  rintro ⟨hfaulted, hcode⟩
  cases k with
  | zero => cases h; exact ht ⟨hfaulted, hcode⟩
  | succ k =>
    obtain ⟨u, hu, -⟩ := exists_step_of_run h
    rw [running_of_step hu] at hfaulted
    cases hfaulted

/-- Settles O59, by induction on the number of steps: each step is the step of the machine without a capacity. -/
theorem capacityOnlyAddsAllocationFailure : Obligations.CapacityOnlyAddsAllocationFailure := by
  intro k
  induction k with
  | zero =>
    intro s t h _
    cases h
    rfl
  | succ k ih =>
    intro s t h ht
    obtain ⟨u, hu, hrun⟩ := exists_step_of_run h
    have hstep : step s.uncapped = .next u.uncapped := step_uncapped hu (not_outOfRoom_of_run hrun ht)
    exact (run_succ_of_next k hstep).trans (ih u t hrun ht)

/-! ## R24's tables, and what a step leaves unchanged -/

/-- Settles O46: of the states an opcode can answer, only the underflow has that cause, and only it is below the depth. -/
theorem underflowExactlyBelowMinDepth : Obligations.UnderflowExactlyBelowMinDepth := by
  intro i s t hrun h
  cases exec_outcome h with
  | underflow _ hlow => simp [hlow]
  | full hmin => simp [hmin]
  | refused hi => simp [hi, minDepth]
  | held hi => simp [hi, hrun, minDepth]
  | halted hi => simp [hi, minDepth]
  | completed inq outq hc => simp [opcodeDone, hrun, hc.enough]

/-- Settles O47: an opcode that completes changes the depth as tabled, and every other state it answers keeps the stack. -/
theorem depthChangesAsTabled : Obligations.DepthChangesAsTabled := by
  intro i s t hrun h
  cases exec_outcome h with
  | underflow => simp
  | full => simp
  | refused => simp
  | held hi hr => simp [hi, hr]
  | halted hi => simp [hi, depthChange]
  | completed inq outq hc =>
    refine ⟨fun _ _ => hc.depth, ?_⟩
    rintro (hfaulted | ⟨hi, hr⟩)
    · exact absurd hfaulted (by simp [opcodeDone, hrun])
    · simp [hc.answered hi] at hr

/-- Settles O48, state by state of those an opcode can answer. -/
theorem opcodesLeaveSequencerStateAlone : Obligations.OpcodesLeaveSequencerStateAlone := by
  intro i s t h
  cases exec_outcome h with
  | underflow => simp
  | full => simp
  | refused => simp
  | held => simp
  | halted hi => simp [hi]
  | completed inq outq hc => simpa [opcodeDone] using hc.drawn

/-- A step keeps the visited flags, but for the end-of-chunk step, which may set that of CUR. -/
theorem step_vis {s t : State} (h : step s = .next t) :
    t.vis = s.vis ∨ 5 ≤ s.slot.toNat ∧ t.vis = s.vis.set s.cur true := by
  obtain ⟨-, ⟨h5, he⟩ | ⟨-, i, -, he⟩ | ⟨-, -, rfl⟩⟩ := step_next_cases h
  · rcases endOfChunk_next_cases he with ⟨c, info, flags, rfl, hflags, -⟩ | ⟨x, rest, b, -, -, -, rfl⟩
    · exact hflags.imp_right (⟨h5, ·⟩)
    · exact (markedFlags_eq s).imp_right (⟨h5, ·⟩)
  · obtain ⟨-, -, hvis, -⟩ := opcodesLeaveSequencerStateAlone i s t he
    exact .inl hvis
  · exact .inl rfl

/-- R33: setting a flag clears none. -/
theorem getElem?_set_true_of_true {flags : List Bool} {k : Nat} (c : Nat) (h : flags[k]? = some true) :
    (flags.set c true)[k]? = some true := by
  by_cases hk : c = k
  · subst hk
    obtain ⟨hlt, -⟩ := List.getElem?_eq_some_iff.mp h
    exact List.getElem?_set_self hlt
  · rw [List.getElem?_set_ne hk]
    exact h

/-- R33: setting the flag of `c` changes no other flag, and that one only to 1. -/
theorem getElem?_set_true_of_ne {flags : List Bool} {c k : Nat} (h : (flags.set c true)[k]? ≠ flags[k]?) :
    k = c ∧ (flags.set c true)[k]? = some true := by
  by_cases hk : c = k
  · subst hk
    by_cases hlt : c < flags.length
    · exact ⟨rfl, List.getElem?_set_self hlt⟩
    · exact absurd (by rw [List.set_eq_of_length_le (by omega)]) h
  · exact absurd (List.getElem?_set_ne hk) h

/-- Settles O49: the only flag a step can write is that of CUR, which the end-of-chunk step sets. -/
theorem visitedFlagsOnlySetAtEndOfChunk : Obligations.VisitedFlagsOnlySetAtEndOfChunk := by
  constructor
  · intro s t k h
    rcases step_vis h with hvis | ⟨h5, hvis⟩ <;> rw [hvis]
    · exact ⟨rfl, id, fun hne => absurd rfl hne⟩
    · refine ⟨List.length_set, getElem?_set_true_of_true s.cur, fun hne => ?_⟩
      obtain ⟨hk, htrue⟩ := getElem?_set_true_of_ne hne
      exact ⟨hk, h5, htrue⟩
  · intro input s k hk
    rw [applyReset_program (Nat.zero_lt_of_lt hk)]
    exact List.getElem?_replicate_of_lt hk

/-- Settles O50: opcodes leave EV, CUR and VIS alone, and the end-of-chunk step that does not fault enters a chunk. -/
theorem snapshotReadOnlyAtChunkEntry : Obligations.SnapshotReadOnlyAtChunkEntry := by
  intro s t _ h
  obtain ⟨-, ⟨h5, he⟩ | ⟨h4, i, -, he⟩ | ⟨h4, -, rfl⟩⟩ := step_next_cases h
  · refine ⟨fun h4 => absurd h4 (by omega), fun _ hrun => ?_⟩
    rcases endOfChunk_next_cases he with ⟨c, info, flags, rfl, -⟩ | ⟨x, rest, b, -, -, hb, rfl⟩
    · simp at hrun
    · exact ⟨rfl, hb⟩
  · obtain ⟨-, -, hvis, hcur, hev, -⟩ := opcodesLeaveSequencerStateAlone i s t he
    exact ⟨fun _ => ⟨hev, hcur, hvis⟩, fun h5 => absurd h5 (by omega)⟩
  · exact ⟨fun _ => ⟨rfl, rfl, rfl⟩, fun h5 => absurd h5 (by omega)⟩

/-! ## Jump targets -/

/-- R32: no opcode at one of the five slots moves SLOT backwards. -/
theorem exec_slot_le {i : Instr} {s t : State} (h4 : s.slot.toNat ≤ 4) (h : exec i s = .next t) :
    s.slot.toNat ≤ t.slot.toNat := by
  cases exec_outcome h with
  | underflow => exact le_rfl
  | full => exact le_rfl
  | refused => exact le_rfl
  | held => exact le_rfl
  | halted => exact le_rfl
  | completed inq outq hc => exact hc.forward h4

/-- R38, R188: with legal parameters a FAULTED block has a non-zero exit status. -/
theorem exitStatus_faulted {s : State} (legal : s.params.wf = true) (h : s.status = .faulted) :
    exitStatus s = some s.params.faultExit ∧ s.params.faultExit ≠ 0 := by
  simp only [Params.wf, Bool.and_eq_true, decide_eq_true_eq] at legal
  exact ⟨by simp [exitStatus, h], legal.2⟩

/-- Under the invariant the end-of-chunk step with a target on the stack enters that chunk, or raises InvalidJump. -/
theorem State.Inv.endOfChunk_target {s : State} (h : s.Inv) (hrun : s.status = .running) {x : Nat} {rest : List Nat}
    (hs : s.stk = x :: rest) :
    (x < s.chunkCount ∧ ∃ b, endOfChunk s = .next (enterChunk x b (s.withVis (markedFlags s)))) ∨
      (s.chunkCount ≤ x ∧ endOfChunk s = .next (raise .invalidJump x (s.withVis (markedFlags s)))) := by
  have hcur := h.curInStore hrun
  have hlen := (markedFlags_length s).trans h.oneFlagPerChunk
  rcases endOfChunk_cases s with ⟨-, hout, -⟩ | ⟨-, ⟨hnil, -⟩ | ⟨y, rest', hs', hy⟩⟩
  · omega
  · simp [hs] at hnil
  · obtain ⟨rfl, rfl⟩ := List.cons.inj (hs.symm.trans hs')
    rcases hy with ⟨hx, he⟩ | ⟨hx, hnone, -⟩ | ⟨b, hx, -, he⟩
    · exact .inr ⟨hx, he⟩
    · have := List.getElem?_eq_none_iff.mp hnone
      omega
    · exact .inl ⟨hx, b, he⟩

/-- Settles O37. -/
theorem jumpTargetIsNeverReduced : Obligations.JumpTargetIsNeverReduced := by
  refine ⟨fun s x rest hinv hrun h5 hs => ?_, fun i s t h4 h => exec_slot_le h4 h⟩
  rw [step_eq_endOfChunk hrun h5]
  rcases hinv.endOfChunk_target hrun hs with ⟨hx, b, he⟩ | ⟨hx, he⟩
  · exact ⟨_, he, fun _ => ⟨hrun, rfl⟩, fun hge => absurd hx (by omega)⟩
  · obtain ⟨hexit, hne⟩ := exitStatus_faulted (s := raise .invalidJump x (s.withVis (markedFlags s))) hinv.legal rfl
    exact ⟨_, he, fun hlt => absurd hx (by omega), fun _ => ⟨rfl, rfl, rfl, rfl, _, hexit, hne⟩⟩

/-! ## The codes and the exit status -/

/-- Settles O43. -/
theorem statusAndFaultCodesAreNumbered : Obligations.StatusAndFaultCodesAreNumbered := ⟨rfl, rfl⟩

/-- Settles O44, status by status. -/
theorem exitStatusTellsSuccessFromFault : Obligations.ExitStatusTellsSuccessFromFault := by
  intro s legal
  refine ⟨fun h => ?_, exitStatus_faulted legal, fun h hload => ?_, fun h hload => ?_, fun h => ?_⟩
  · simp [exitStatus, h]
  · simp [exitStatus, h, hload]
  · simp [exitStatus, h, hload]
  · simp [exitStatus, h]

end Sys2Proof.Machine

/-! The memory family: the Program Store as the loader fills it, and the input and output channels over a step and over a
run. -/

namespace Sys2Proof

/-! ## Reading a text that spells a program -/

/-- R69: decoding undoes encoding, row by row of R68. -/
@[simp] theorem decode_encode (i : Instr) : decode (encode i) = i := by cases i <;> rfl

/-- R66: the loader reads the symbol of an opcode as its code, row by row of R68. -/
@[simp] theorem symbolCode?_symbol (i : Instr) : symbolCode? i.symbol = some (encode i) := by cases i <;> rfl

/-- R193: a well-formed program is a positive number of whole chunks. -/
theorem Program.length_of_wf {p : Program} (h : Program.wf p = true) : 0 < p.length ∧ p.length % 5 = 0 := by
  simp only [Program.wf, Bool.and_eq_true, decide_eq_true_eq] at h
  obtain ⟨⟨-, hpos⟩, h5⟩ := h
  exact ⟨hpos, h5⟩

/-- R74, R76: a text that spells a well-formed program is accepted, as the program's codes. -/
theorem parseText_spelling {p : Program} {text : List Char} (hwf : Program.wf p = true)
    (hspell : text.filter (fun c => !isBlank c) = p.map Instr.symbol) : parseText text = .ok (p.map encode) := by
  have hread : readSymbols text = .ok (p.map encode) := by
    rw [readSymbols_eq_ok, hspell]
    simp
  rw [parseText_eq_ok, List.length_map]
  exact ⟨hread, Program.length_of_wf hwf⟩

end Sys2Proof

namespace Sys2Proof.Machine

/-! ## The Program Store after a load -/

/-- R194: a text that is accepted is loaded, and the block is reset with it. -/
theorem load_text_of_accepted {text : List Char} {codes : List Code} (h : parseText text = .ok codes) (input : List Byte)
    (s : State) : load (.text text) input s = applyReset input (buildStore codes s) := by
  simp [load, h]

/-- R12: at a chunk and slot the Store has, a read is a read of the dense list of codes. -/
theorem pmRead_of_lt {s : State} {k sl : Nat} (hk : k < s.chunkCount) (hs : sl ≤ 4) :
    pmRead s k sl = s.pm[5 * k + sl]? := if_pos ⟨hk, hs⟩

/-- A Store that holds a program's codes answers, decoded, the program's own opcodes. -/
theorem pmRead_map_decode {s : State} {p : Program} (hpm : s.pm = p.map encode) {k sl : Nat} (hk : k < p.length / 5)
    (hs : sl ≤ 4) : (pmRead s k sl).map decode = p[5 * k + sl]? := by
  have hN : s.chunkCount = p.length / 5 := by rw [State.chunkCount, hpm, List.length_map]
  rw [pmRead_of_lt (hN ▸ hk) hs, hpm, List.getElem?_map, Option.map_map]
  simp [Function.comp_def]

/-- Settles O4: the text is accepted as the program's codes, which reset keeps and the Store answers. -/
theorem loadedTextIsFetchedAsWritten : Obligations.LoadedTextIsFetchedAsWritten := by
  intro p text input s hwf hspell
  have hN : (buildStore (p.map encode) s).chunkCount = p.length / 5 := by simp
  have hpos : 0 < (buildStore (p.map encode) s).chunkCount := by
    have := Program.length_of_wf hwf
    omega
  rw [load_text_of_accepted (parseText_spelling hwf hspell), applyReset_program hpos]
  exact ⟨rfl, hN, fun k sl hk hs => pmRead_map_decode rfl hk hs⟩

/-! ## READ -/

/-- R100: READ with an answer ready and room for it. -/
theorem exec_read_of_room {s : State} (hr : s.inReady = true) (hroom : s.params.stackCap ≠ some s.stk.length) :
    exec .read s = finish (inRead s).2 (answerValue (inRead s).1 :: s.stk) := by
  have hcap : ¬ atCap s = true := mt atCap_iff.mp hroom
  simp [exec, execRead, hr, hcap]

theorem inRead_cons {s : State} {b : Byte} {rest : List Byte} (h : s.inq = b :: rest) :
    inRead s = (.byte b, s.withInq rest) := by simp [inRead, h]

theorem inRead_nil {s : State} (h : s.inq = []) : inRead s = (.eof, s) := by simp [inRead, h]

/-- Settles O12, answer by answer of the IN port. -/
theorem readPushesByteOrZero : Obligations.ReadPushesByteOrZero := by
  intro s hr hroom
  rw [exec_read_of_room hr hroom]
  refine ⟨fun b rest hq => ⟨?_, ?_⟩, fun hq => ?_⟩
  · rw [inRead_cons hq]
    rfl
  · have := b.isLt
    omega
  · rw [inRead_nil hq]
    rfl

/-! ## The channels over one step -/

/-- Every state this outcome answers has the channels of `s`. -/
def KeepsChannels (s : State) (o : Host.Outcome State Fault Refusal) : Prop :=
  ∀ t, o = .next t → t.inq = s.inq ∧ t.outq = s.outq

theorem keepsChannels_next {s t : State} (hin : t.inq = s.inq) (hout : t.outq = s.outq) : KeepsChannels s (.next t) := by
  intro u h
  cases h
  exact ⟨hin, hout⟩

theorem keepsChannels_finish (s : State) (stk : List Nat) : KeepsChannels s (finish s stk) := keepsChannels_next rfl rfl

theorem keepsChannels_raised (c : FCode) (info : Nat) (s : State) : KeepsChannels s (raised c info s) :=
  keepsChannels_next rfl rfl

theorem keepsChannels_pushFinish (s : State) (v : Nat) : KeepsChannels s (pushFinish s v) := by
  rcases pushFinish_cases s v with ⟨-, h⟩ | ⟨-, h⟩ <;> rw [h]
  · exact keepsChannels_raised _ _ s
  · exact keepsChannels_finish s _

theorem keepsChannels_mapTop (f : Nat → Nat) (s : State) : KeepsChannels s (mapTop f s) := by
  rcases mapTop_cases f s with ⟨-, h⟩ | ⟨a, rest, -, h⟩ <;> rw [h]
  · exact keepsChannels_raised _ _ s
  · exact keepsChannels_finish s _

theorem keepsChannels_combineTop (f : Nat → Nat → Nat) (s : State) : KeepsChannels s (combineTop f s) := by
  rcases combineTop_cases f s with ⟨-, h⟩ | ⟨a, b, rest, -, h⟩ <;> rw [h]
  · exact keepsChannels_raised _ _ s
  · exact keepsChannels_finish s _

/-- R104: no opcode but READ and WRITE touches a channel. -/
theorem exec_keepsChannels {i : Instr} (hr : i ≠ .read) (hw : i ≠ .write) (s : State) : KeepsChannels s (exec i s) := by
  cases i with
  | read => exact absurd rfl hr
  | write => exact absurd rfl hw
  | drop =>
    simp only [exec, execDrop]
    split
    · exact keepsChannels_finish s _
    · exact keepsChannels_raised _ _ s
  | dup =>
    simp only [exec, execDup]
    split
    · exact keepsChannels_pushFinish s _
    · exact keepsChannels_raised _ _ s
  | swap =>
    simp only [exec, execSwap]
    split
    · exact keepsChannels_finish s _
    · exact keepsChannels_raised _ _ s
    · exact keepsChannels_raised _ _ s
  | inc => exact keepsChannels_mapTop _ s
  | dec => exact keepsChannels_mapTop _ s
  | add => exact keepsChannels_combineTop _ s
  | absd => exact keepsChannels_combineTop _ s
  | rotb =>
    simp only [exec, execRotb]
    split
    · exact keepsChannels_finish s _
    · split
      · exact keepsChannels_raised _ _ s
      · exact keepsChannels_finish s _
  | nop =>
    simp only [exec, execNop]
    split
    · exact keepsChannels_next rfl rfl
    · exact keepsChannels_raised _ _ s
  | skipf => exact keepsChannels_next rfl rfl
  | skipv => exact keepsChannels_next rfl rfl
  | ret => exact keepsChannels_next rfl rfl
  | halt => exact keepsChannels_next rfl rfl
  | shuf => exact keepsChannels_next rfl rfl

/-- R42, R52: the port hands over input from the front, and leaves the output. -/
theorem inRead_channels (s : State) : (inRead s).2.inq <:+ s.inq ∧ (inRead s).2.outq = s.outq := by
  rcases inRead_cases s with ⟨-, h⟩ | ⟨b, rest, hq, h⟩ <;> rw [h]
  · exact ⟨List.suffix_rfl, rfl⟩
  · exact ⟨hq ▸ List.suffix_cons b rest, rfl⟩

/-- R100: READ consumes input from the front, if any, and leaves the output. -/
theorem exec_read_channels {s t : State} (h : exec .read s = .next t) : t.inq <:+ s.inq ∧ t.outq = s.outq := by
  simp only [exec, execRead] at h
  split at h
  · split at h
    · cases h
      exact ⟨List.suffix_rfl, rfl⟩
    · cases h
      exact inRead_channels s
  · cases h
    exact ⟨List.suffix_rfl, rfl⟩

/-- R102: WRITE appends to the output, if anything, and leaves the input. -/
theorem exec_write_channels {s t : State} (h : exec .write s = .next t) : t.inq = s.inq ∧ s.outq <+: t.outq := by
  simp only [exec, execWrite] at h
  split at h
  · cases h
    exact ⟨rfl, List.prefix_append _ _⟩
  · cases h
    exact ⟨rfl, List.prefix_rfl⟩

/-! ## Runs -/

/-- `t` may follow `s` in a run, as far as its channels, program and parameters tell. -/
structure Continues (s t : State) : Prop where
  outq : s.outq <+: t.outq
  inq : t.inq <:+ s.inq
  pm : t.pm = s.pm
  params : t.params = s.params

theorem Continues.refl (s : State) : Continues s s := ⟨List.prefix_rfl, List.suffix_rfl, rfl, rfl⟩

theorem Continues.trans {s t u : State} (hst : Continues s t) (htu : Continues t u) : Continues s u :=
  ⟨hst.outq.trans htu.outq, htu.inq.trans hst.inq, htu.pm.trans hst.pm, htu.params.trans hst.params⟩

theorem exec_continues {i : Instr} {s t : State} (h : exec i s = .next t) : Continues s t := by
  obtain ⟨hparams, hpm, -⟩ := opcodesLeaveSequencerStateAlone i s t h
  by_cases hr : i = .read
  · subst hr
    obtain ⟨hin, hout⟩ := exec_read_channels h
    exact ⟨hout ▸ List.prefix_rfl, hin, hpm, hparams⟩
  · by_cases hw : i = .write
    · subst hw
      obtain ⟨hin, hout⟩ := exec_write_channels h
      exact ⟨hout, hin ▸ List.suffix_rfl, hpm, hparams⟩
    · obtain ⟨hin, hout⟩ := exec_keepsChannels hr hw s t h
      exact ⟨hout ▸ List.prefix_rfl, hin ▸ List.suffix_rfl, hpm, hparams⟩

/-- The end-of-chunk step touches VIS, the place and the fault record, and so none of these. -/
theorem endOfChunk_continues {s t : State} (h : endOfChunk s = .next t) : Continues s t := by
  rcases endOfChunk_next_cases h with ⟨c, info, flags, rfl, -⟩ | ⟨x, rest, b, -, -, -, rfl⟩
  · exact ⟨List.prefix_rfl, List.suffix_rfl, rfl, rfl⟩
  · exact ⟨List.prefix_rfl, List.suffix_rfl, rfl, rfl⟩

theorem step_continues {s t : State} (h : step s = .next t) : Continues s t := by
  obtain ⟨-, ⟨-, he⟩ | ⟨-, i, -, he⟩ | ⟨-, -, rfl⟩⟩ := step_next_cases h
  · exact endOfChunk_continues he
  · exact exec_continues he
  · exact ⟨List.prefix_rfl, List.suffix_rfl, rfl, rfl⟩

theorem run_continues {k : Nat} {s t : State} (h : Sys2Proof.core.run k s = .next t) : Continues s t := by
  induction k generalizing s with
  | zero =>
    cases h
    exact .refl _
  | succ k ih =>
    obtain ⟨u, hu, hrun⟩ := exists_step_of_run h
    exact (step_continues hu).trans (ih hrun)

/-- Settles O58. -/
theorem runsAppendOutputAndConsumeInput : Obligations.RunsAppendOutputAndConsumeInput := by
  intro k s t h
  obtain ⟨houtq, hinq, hpm, hparams⟩ := run_continues h
  exact ⟨houtq, hinq, hpm, hparams⟩

end Sys2Proof.Machine

/-! The encoding family: the decoder and the encoder on every code, and the loader's acceptance test on every text. -/

namespace Sys2Proof

/-! ## The acceptance test -/

/-- R74, D10: the blanks are the space and the five control characters from 9 to 13. -/
theorem isBlank_eq (c : Char) : isBlank c = decide (c.toNat = 0x20 ∨ 9 ≤ c.toNat ∧ c.toNat ≤ 13) := by
  rw [Bool.eq_iff_iff, decide_eq_true_iff]
  simp only [isBlank, List.contains_iff_mem, List.mem_cons, List.not_mem_nil, or_false]
  omega

/-- R66, R75: the 16 symbols of program text. -/
def symbolChars : List Char := ['0', '1', '2', '3', '4', '5', '6', '7', '8', '9', 'A', 'B', 'C', 'D', 'E', 'F']

/-- R66, R75: the characters that spell a code are the 16 symbols. -/
theorem symbolCode?_mem_range_some {c : Char} : symbolCode? c ∈ Set.range some ↔ c ∈ symbolChars := by
  constructor
  · rintro ⟨code, h⟩
    unfold symbolCode? at h
    split at h
    case h_17 => cases h
    all_goals decide
  · intro h
    fin_cases h <;> exact ⟨_, rfl⟩

/-- A text is read without error exactly when its non-blank characters are all symbols. -/
theorem exists_readSymbols_eq_ok {text : List Char} :
    (∃ codes, readSymbols text = .ok codes) ↔ ∀ c ∈ text.filter (fun c => !isBlank c), c ∈ symbolChars := by
  simp only [readSymbols_eq_ok, ← symbolCode?_mem_range_some]
  generalize text.filter (fun c => !isBlank c) = syms
  calc (∃ codes, syms.map symbolCode? = codes.map some)
      ↔ syms.map symbolCode? ∈ Set.range (List.map some) := exists_congr fun _ => eq_comm
    _ ↔ ∀ o ∈ syms.map symbolCode?, o ∈ Set.range some := by rw [Set.range_list_map, Set.mem_ofPred_eq]
    _ ↔ ∀ c ∈ syms, symbolCode? c ∈ Set.range some := List.forall_mem_map

/-- Each non-blank character of a text that is read gives one code. -/
theorem length_of_readSymbols {text : List Char} {codes : List Code} (h : readSymbols text = .ok codes) :
    codes.length = (text.filter (fun c => !isBlank c)).length := by
  simpa using (congrArg List.length (readSymbols_eq_ok.mp h)).symm

/-- R76, with the blanks as the model tells them. -/
theorem exists_parseText_eq_ok {text : List Char} :
    (∃ codes, parseText text = .ok codes) ↔
      (∀ c ∈ text.filter (fun c => !isBlank c), c ∈ symbolChars) ∧
        0 < (text.filter (fun c => !isBlank c)).length ∧ (text.filter (fun c => !isBlank c)).length % 5 = 0 := by
  rw [← exists_readSymbols_eq_ok]
  constructor
  · rintro ⟨codes, h⟩
    obtain ⟨hread, hcount⟩ := parseText_eq_ok.mp h
    exact ⟨⟨codes, hread⟩, length_of_readSymbols hread ▸ hcount⟩
  · rintro ⟨⟨codes, hread⟩, hcount⟩
    exact ⟨codes, parseText_eq_ok.mpr ⟨hread, length_of_readSymbols hread ▸ hcount⟩⟩

/-- Settles O3: the written-out set of blanks is the model's. -/
theorem loaderAcceptsExactlyWholeChunkTexts : Obligations.LoaderAcceptsExactlyWholeChunkTexts := by
  intro text
  simp only [← isBlank_eq]
  exact exists_parseText_eq_ok

/-! ## The decoder on words and bytes -/

/-- R64, log entry 8: a word of one byte with a bit above `op[3:0]` is no code. -/
theorem decodeTableWord_of_ge {w : Nat} (h16 : 16 ≤ w) (h256 : w < 256) : decodeTableWord 8 w = none := by
  have hw : w % 2 ^ 8 = w := Nat.mod_eq_of_lt h256
  rw [decodeTableWord, hw, if_neg (Nat.not_lt.mpr h16)]

/-- R64: a byte below 16 holds the code in its low four bits. -/
theorem decodeByte_of_lt {b : Byte} (h : b.toNat < 16) : decodeByte b = .ok (decode (b.setWidth 4)) := if_pos h

/-- R64, log entry 8: a byte with a bit above `op[3:0]` is rejected. -/
theorem decodeByte_of_ge {b : Byte} (h : 16 ≤ b.toNat) : decodeByte b = .error (.notACode b) := if_neg (Nat.not_lt.mpr h)

/-- A byte decodes as the word it is: both give the code in the low four bits, or both reject. -/
theorem decodeByte_toOption (b : Byte) : (decodeByte b).toOption = decodeTableWord 8 b.toNat := by
  rcases Nat.lt_or_ge b.toNat 16 with h | h
  · have hcode : (b.setWidth 4).toNat = b.toNat := by
      rw [BitVec.toNat_setWidth, Nat.mod_eq_of_lt h]
    rw [decodeByte_of_lt h, ← hcode, decodeTableWord_code]
    rfl
  · rw [decodeByte_of_ge h, decodeTableWord_of_ge h b.isLt]
    rfl

/-- Settles O1: the table row by row, and beyond it the byte and the word alike. -/
theorem decodeFollowsOpcodeTable : Obligations.DecodeFollowsOpcodeTable :=
  ⟨by decide, decodeByte_toOption, fun _ => decodeByte_of_ge, fun _ => decodeTableWord_of_ge⟩

/-! ## The decoder and the encoder -/

/-- R69, R70: encoding undoes decoding, code by code. -/
@[simp] theorem encode_decode (c : Code) : encode (decode c) = c := by
  revert c
  decide

/-- Settles O2. -/
theorem decodeAndEncodeAreInverse : Obligations.DecodeAndEncodeAreInverse := ⟨decode_encode, encode_decode⟩

end Sys2Proof

/-! The sequencer family: which step a RUNNING block takes and what it answers, how an opcode leaves SLOT, the end-of-chunk
mark and jump, and the reachable states seen from the sequencer. -/

namespace Sys2Proof.Machine

/-! ## Which step is taken -/

/-- Settles O9. -/
theorem stepRunsDecodedInstruction : Obligations.StepRunsDecodedInstruction := by
  intro s hrun
  exact ⟨step_eq_endOfChunk hrun, fun c h4 hcur hc => step_eq_exec hrun (fetch_eq_some h4 hcur hc)⟩

/-- R98: the end-of-chunk step answers a next state, in every state. -/
theorem endOfChunk_isNext (s : State) : ∃ t, endOfChunk s = .next t := by
  rcases endOfChunk_cases s with
    ⟨-, -, he⟩ | ⟨-, ⟨-, he⟩ | ⟨x, rest, -, ⟨-, he⟩ | ⟨-, -, he⟩ | ⟨b, -, -, he⟩⟩⟩
  all_goals exact ⟨_, he⟩

theorem step_isNext {s : State} (hrun : s.status = .running) : ∃ t, step s = .next t := by
  rcases step_running hrun with ⟨-, he⟩ | ⟨-, i, -, he⟩ | ⟨-, -, he⟩ <;> rw [he]
  · exact endOfChunk_isNext s
  · exact exec_isNext i s
  · exact ⟨_, rfl⟩

/-- R81, R176: outside RUNNING no step is enabled. -/
theorem step_of_not_running {s : State} (h : s.status ≠ .running) : step s = .fault (.notRunning s.status) := by
  unfold step
  cases hs : s.status with
  | running => exact absurd hs h
  | idle => rfl
  | halted => rfl
  | faulted => rfl

/-- R95: exactly an ended run is observed. -/
theorem observe_isSome (s : State) : (observe s).isSome = true ↔ Ended s := by
  unfold observe
  by_cases h : Ended s
  · simp [h]
  · simp [h]

/-- Settles O10. -/
theorem stepEnabledExactlyWhileRunning : Obligations.StepEnabledExactlyWhileRunning :=
  fun s => ⟨step_isNext, step_of_not_running, observe_isSome s⟩

/-! ## A placed word -/

theorem placeCode_status (c : Code) (s : State) : (placeCode c s).status = .running := by
  unfold placeCode
  split <;> rfl

/-- Log entry 7: the placed code is the one fetched, in the program or in the one-chunk program put in its place. -/
theorem fetch_placeCode (c : Code) (s : State) : fetch (placeCode c s) = some (decode c) := by
  unfold placeCode
  by_cases hcur : s.cur < s.chunkCount
  · have hN : s.cur < s.pm.length / 5 := hcur
    by_cases h4 : s.slot.toNat ≤ 4
    · simp only [hcur, h4, if_true]
      have hlt : 5 * s.cur + s.slot.toNat < s.pm.length := by omega
      exact fetch_eq_some h4 (by simpa [State.chunkCount] using hN) (List.getElem?_set_self hlt)
    · simp only [hcur, h4, if_true, if_false]
      have hlt : 5 * s.cur + 0 < s.pm.length := by omega
      exact fetch_eq_some (Nat.zero_le 4) (by simpa [State.chunkCount] using hN) (List.getElem?_set_self hlt)
  · simp only [hcur, if_false]
    exact fetch_eq_some (Nat.zero_le 4) (by simp [State.chunkCount]) rfl

/-- A code handed over as a table word is the code placed. -/
theorem withFetchWord_code (s : State) (c : Code) : s.withFetchWord 8 c.toNat = placeCode c s := by
  have hlt : c.toNat < 2 ^ 8 := c.isLt.trans (by decide)
  rw [State.withFetchWord, Nat.mod_eq_of_lt hlt, BitVec.ofNat_toNat, BitVec.setWidth_eq]

/-- Settles O11. -/
theorem placedWordIsRun : Obligations.PlacedWordIsRun := by
  intro s c
  rw [withFetchWord_code]
  exact step_eq_exec (placeCode_status c s) (fetch_placeCode c s)

/-! ## A held READ -/

/-- A state that its own step answers is where every run from it stays. -/
theorem run_of_step_self {s : State} (h : step s = .next s) (k : Nat) : Sys2Proof.core.run k s = .next s := by
  induction k with
  | zero => exact run_zero s
  | succ k ih => exact (run_succ_of_next k h).trans ih

/-- R93: READ with no answer ready holds. -/
theorem exec_read_of_not_ready {s : State} (hr : s.inReady = false) : exec .read s = .next s := by
  simp [exec, execRead, hr]

/-- Settles O14. -/
theorem heldReadWaitsForHost : Obligations.HeldReadWaitsForHost := by
  intro k s hrun _ hf hr
  have hself : step s = .next s := (step_eq_exec hrun hf).trans (exec_read_of_not_ready hr)
  exact run_of_step_self hself k

/-! ## How an opcode leaves SLOT -/

/-- An outcome of an opcode step to which R84's default applies: it faults with all else kept, or ends at the next slot. -/
inductive FaultsOrFinishes (s : State) : Host.Outcome State Fault Refusal → Prop where
  | faults (c : FCode) (info : Nat) : FaultsOrFinishes s (raised c info s)
  | finishes (u : State) (stk : List Nat) : u.slot = s.slot → FaultsOrFinishes s (finish u stk)

theorem faultsOrFinishes_pushFinish (s : State) (v : Nat) : FaultsOrFinishes s (pushFinish s v) := by
  rcases pushFinish_cases s v with ⟨-, h⟩ | ⟨-, h⟩ <;> rw [h]
  · exact .faults _ _
  · exact .finishes s _ rfl

theorem faultsOrFinishes_mapTop (f : Nat → Nat) (s : State) : FaultsOrFinishes s (mapTop f s) := by
  rcases mapTop_cases f s with ⟨-, h⟩ | ⟨a, rest, -, h⟩ <;> rw [h]
  · exact .faults _ _
  · exact .finishes s _ rfl

theorem faultsOrFinishes_combineTop (f : Nat → Nat → Nat) (s : State) : FaultsOrFinishes s (combineTop f s) := by
  rcases combineTop_cases f s with ⟨-, h⟩ | ⟨a, b, rest, -, h⟩ <;> rw [h]
  · exact .faults _ _
  · exact .finishes s _ rfl

theorem inRead_slot (s : State) : (inRead s).2.slot = s.slot := by
  rcases inRead_cases s with ⟨-, h⟩ | ⟨b, rest, -, h⟩ <;> rw [h]
  rfl

/-- R84: the default applies to every opcode but `8`, `A`, `B` and `C`. -/
theorem exec_faultsOrFinishes {i : Instr} {s : State} (hread : i = .read → s.inReady = true) (hret : i ≠ .ret)
    (hhalt : i ≠ .halt) (hskipf : i ≠ .skipf) (hskipv : i ≠ .skipv) : FaultsOrFinishes s (exec i s) := by
  cases i with
  | ret => exact absurd rfl hret
  | halt => exact absurd rfl hhalt
  | skipf => exact absurd rfl hskipf
  | skipv => exact absurd rfl hskipv
  | read =>
    simp only [exec, execRead, hread rfl, if_true]
    split
    · exact .faults _ _
    · exact .finishes _ _ (inRead_slot s)
  | write =>
    simp only [exec, execWrite]
    split
    · exact .finishes _ _ rfl
    · exact .faults _ _
  | drop =>
    simp only [exec, execDrop]
    split
    · exact .finishes s _ rfl
    · exact .faults _ _
  | dup =>
    simp only [exec, execDup]
    split
    · exact faultsOrFinishes_pushFinish s _
    · exact .faults _ _
  | swap =>
    simp only [exec, execSwap]
    split
    · exact .finishes s _ rfl
    · exact .faults _ _
    · exact .faults _ _
  | inc => exact faultsOrFinishes_mapTop _ s
  | dec => exact faultsOrFinishes_mapTop _ s
  | add => exact faultsOrFinishes_combineTop _ s
  | absd => exact faultsOrFinishes_combineTop _ s
  | rotb =>
    simp only [exec, execRotb]
    split
    · exact .finishes s _ rfl
    · split
      · exact .faults _ _
      · exact .finishes s _ rfl
  | shuf => exact .finishes (s.withDraws (s.draws + 1)) _ rfl
  | nop =>
    simp only [exec, execNop]
    split
    · exact .finishes s s.stk rfl
    · exact .faults _ _

theorem slot_of_faultsOrFinishes {s t : State} (h : FaultsOrFinishes s (.next t)) (ht : t.status ≠ .faulted) :
    t.slot = s.slot + 1 := by
  generalize ho : Host.Outcome.next t = o at h
  cases h with
  | faults c info =>
    cases ho
    exact absurd rfl ht
  | finishes u stk hu =>
    cases ho
    rw [← hu]
    rfl

/-- R146, R152: `8` and `C` pass over one slot or two. -/
theorem skipNextIf_slot {b : Bool} {s t : State} (h : skipNextIf b s = .next t) :
    t.slot = s.slot + 1 ∨ t.slot = s.slot + 2 := by
  cases h
  cases b
  · exact .inl rfl
  · exact .inr rfl

/-- R175: an opcode that faults leaves SLOT at the fault. -/
theorem slot_of_exec_faulted {i : Instr} {s t : State} (hrun : s.status = .running) (h : exec i s = .next t)
    (ht : t.status = .faulted) : t.slot = s.slot := by
  obtain ⟨-, -, -, -, -, -, -, ⟨hs, -⟩ | ⟨-, hs, -⟩ | ⟨-, -, hslot⟩⟩ := opcodesLeaveSequencerStateAlone i s t h
  · simp [hs, hrun] at ht
  · simp [hs] at ht
  · exact hslot

/-- Settles O51: the four overrides by their own rules, every other opcode by the default. -/
theorem slotAdvancesByOneUnlessOverridden : Obligations.SlotAdvancesByOneUnlessOverridden := by
  intro i s t hrun hread h
  refine ⟨slot_of_exec_faulted hrun h, fun hnf => ⟨?_, ?_, ?_, fun hret hhalt hskipf hskipv => ?_⟩⟩
  · rintro rfl
    cases h
    rfl
  · rintro rfl
    cases h
    exact ⟨rfl, rfl⟩
  · rintro (rfl | rfl)
    · exact skipNextIf_slot h
    · exact skipNextIf_slot h
  · exact slot_of_faultsOrFinishes (h ▸ exec_faultsOrFinishes hread hret hhalt hskipf hskipv) hnf

/-! ## The end-of-chunk step, branch by branch -/

/-- R88: where the mark can be made, or none is due, the jump follows it. -/
theorem endOfChunk_eq_takeJump {s : State} (h : MarkExempt s ∨ s.cur < s.chunkCount) :
    endOfChunk s = takeJump (s.withVis (markedFlags s)) := by
  unfold endOfChunk markedFlags
  rcases markVisited_cases s with ⟨h7, hm, he⟩ | ⟨hn, -, he⟩ | ⟨hn, hcur, -⟩
  · rw [he, if_pos ⟨h7, hm⟩]
    rfl
  · rw [he, if_neg hn]
  · exact absurd (h.resolve_left hn) hcur.not_gt

theorem endOfChunk_of_noChunk {s : State} (h : ¬ (MarkExempt s ∨ s.cur < s.chunkCount)) :
    endOfChunk s = .next (raise .outOfRange s.cur s) := by
  rcases endOfChunk_cases s with ⟨-, -, he⟩ | ⟨h', -⟩
  · exact he
  · exact absurd h' h

theorem takeJump_of_empty {s : State} (h : s.stk.head? = none) : takeJump s = .next (raise .stackUnderflow 1 s) := by
  rcases takeJump_cases s with ⟨-, he⟩ | ⟨x, rest, hs, -⟩
  · exact he
  · simp [hs] at h

/-- R89: a target at or above `N`. -/
theorem takeJump_of_outside {s : State} {x : Nat} (h : s.stk.head? = some x) (hx : s.chunkCount ≤ x) :
    takeJump s = .next (raise .invalidJump x s) := by
  obtain ⟨rest, hs⟩ := List.head?_eq_some_iff.mp h
  simp [takeJump, hs, hx.not_gt, raised]

/-- R171: a target below `N` that has no flag. -/
theorem takeJump_of_noFlag {s : State} {x : Nat} (h : s.stk.head? = some x) (hx : x < s.chunkCount)
    (hv : s.vis[x]? = none) : takeJump s = .next (raise .outOfRange x s) := by
  obtain ⟨rest, hs⟩ := List.head?_eq_some_iff.mp h
  simp [takeJump, hs, hx, visRead, hv, raised]

/-- R89, R90: a target below `N` is entered with its flag. -/
theorem takeJump_of_flag {s : State} {x : Nat} {b : Bool} (h : s.stk.head? = some x) (hx : x < s.chunkCount)
    (hv : s.vis[x]? = some b) : takeJump s = .next (enterChunk x b s) := by
  obtain ⟨rest, hs⟩ := List.head?_eq_some_iff.mp h
  simp [takeJump, hs, hx, visRead, hv]

/-- R174: a fault at end-of-chunk, with `FOP` 0. -/
theorem raise_endOfChunk {s : State} (h5 : 5 ≤ s.slot.toNat) (c : FCode) (info : Nat) :
    raise c info s = { s with status := .faulted, frec := ⟨c, s.cur, s.slot, 0, info⟩ } := by
  rw [raise, faultRecord, faultingOp_endOfChunk h5]
  rfl

theorem step_eq_takeJump {s : State} (hrun : s.status = .running) (h5 : 5 ≤ s.slot.toNat) (hcur : s.cur < s.chunkCount) :
    step s = takeJump (s.withVis (markedFlags s)) :=
  (step_eq_endOfChunk hrun h5).trans (endOfChunk_eq_takeJump (.inr hcur))

/-- R90: where there is a flag for each chunk, a target in the program is entered with its flag after the mark. -/
theorem step_enters {s : State} {x : Nat} (hrun : s.status = .running) (h5 : 5 ≤ s.slot.toNat)
    (hcur : s.cur < s.chunkCount) (hvis : s.vis.length = s.chunkCount) (hs : s.stk.head? = some x) (hx : x < s.chunkCount) :
    step s = .next (enterChunk x ((markedFlags s).getD x false) (s.withVis (markedFlags s))) := by
  have hlt : x < (markedFlags s).length := by rw [markedFlags_length, hvis]; exact hx
  rw [step_eq_takeJump hrun h5 hcur]
  exact takeJump_of_flag hs hx (by simp [hlt])

/-- Settles O35. -/
theorem endOfChunkMarksThenJumps : Obligations.EndOfChunkMarksThenJumps := by
  intro s x rest hrun h5 hcur hvis hs hx
  exact step_enters hrun h5 hcur hvis (by simp [hs]) hx

/-- Settles O36: the fault is raised in the marked state. -/
theorem endOfChunkFaultsAfterMark : Obligations.EndOfChunkFaultsAfterMark := by
  intro s hrun h5 hcur
  have recorded := raise_endOfChunk (s := s.withVis (markedFlags s)) h5
  rw [step_eq_takeJump hrun h5 hcur]
  constructor
  · intro hs
    rw [takeJump_of_empty (by simp [hs]), recorded]
    rfl
  · intro x rest hs hx
    rw [takeJump_of_outside (s := s.withVis (markedFlags s)) (x := x) (by simp [hs]) hx, recorded]
    rfl

/-- Settles O38. -/
theorem jumpLeavesTargetOnStack : Obligations.JumpLeavesTargetOnStack := by
  intro s t hrun h5 h
  rw [step_eq_endOfChunk hrun h5] at h
  rcases endOfChunk_next_cases h with ⟨c, info, flags, rfl, -⟩ | ⟨x, rest, b, hs, -, -, rfl⟩
  · exact ⟨rfl, fun hr => by simp at hr⟩
  · refine ⟨rfl, fun _ => ?_⟩
    show s.stk.head? = some x
    simp [hs]

/-- R88: a chunk that is not exempt has its own flag set. -/
theorem markedFlags_cur {s : State} (h : ¬ MarkExempt s) (hlt : s.cur < s.vis.length) :
    (markedFlags s).getD s.cur false = true := by
  simp [markedFlags, h, hlt]

/-- Settles O39. -/
theorem selfJumpSeesOwnMark : Obligations.SelfJumpSeesOwnMark := by
  intro s rest hrun h5 hcur hvis hs hmark
  have hexempt : ¬ MarkExempt s := fun ⟨h7, hfalse⟩ => by simp [hmark h7] at hfalse
  exact ⟨_, step_enters hrun h5 hcur hvis (by simp [hs]) hcur, rfl, rfl, markedFlags_cur hexempt (by omega)⟩

/-! ## What the sequencer sees -/

/-- `s'` is `s` as far as the end-of-chunk step looks: R97's view, with MARK_ON_RETURN only where R88 reads it. -/
structure SeenAlike (s s' : State) : Prop where
  exempt : MarkExempt s' ↔ MarkExempt s
  pm : s'.pm = s.pm
  vis : s'.vis = s.vis
  cur : s'.cur = s.cur
  slot : s'.slot = s.slot
  top : s'.stk.head? = s.stk.head?

theorem SeenAlike.refl (s : State) : SeenAlike s s := ⟨.rfl, rfl, rfl, rfl, rfl, rfl⟩

theorem SeenAlike.chunkCount_eq {s s' : State} (h : SeenAlike s s') : s'.chunkCount = s.chunkCount := by
  rw [State.chunkCount, State.chunkCount, h.pm]

theorem SeenAlike.markedFlags_eq {s s' : State} (h : SeenAlike s s') : markedFlags s' = markedFlags s := by
  simp only [markedFlags, h.exempt, h.vis, h.cur]

theorem SeenAlike.endOfChunk_eq {s s' : State} (h : SeenAlike s s') (hm : MarkExempt s ∨ s.cur < s.chunkCount) :
    endOfChunk s' = takeJump (s'.withVis (markedFlags s)) := by
  rw [← h.markedFlags_eq]
  exact endOfChunk_eq_takeJump (by rwa [h.exempt, h.cur, h.chunkCount_eq])

/-- R97: what the end-of-chunk step does is fixed by what it sees: in every state seen alike it raises the same fault, or
enters the same chunk with the same flag, after the same mark. -/
theorem endOfChunk_fixed_by_view (s : State) :
    (∃ c info flags, ∀ s', SeenAlike s s' → endOfChunk s' = .next (raise c info (s'.withVis flags))) ∨
      ∃ x b flags, ∀ s', SeenAlike s s' → endOfChunk s' = .next (enterChunk x b (s'.withVis flags)) := by
  by_cases hm : MarkExempt s ∨ s.cur < s.chunkCount
  · cases htop : s.stk.head? with
    | none =>
      refine .inl ⟨.stackUnderflow, 1, markedFlags s, fun s' h => ?_⟩
      rw [h.endOfChunk_eq hm]
      exact takeJump_of_empty (h.top.trans htop)
    | some x =>
      by_cases hx : x < s.chunkCount
      · cases hv : (markedFlags s)[x]? with
        | none =>
          refine .inl ⟨.outOfRange, x, markedFlags s, fun s' h => ?_⟩
          rw [h.endOfChunk_eq hm]
          exact takeJump_of_noFlag (h.top.trans htop) (h.chunkCount_eq ▸ hx) hv
        | some b =>
          refine .inr ⟨x, b, markedFlags s, fun s' h => ?_⟩
          rw [h.endOfChunk_eq hm]
          exact takeJump_of_flag (h.top.trans htop) (h.chunkCount_eq ▸ hx) hv
      · refine .inl ⟨.invalidJump, x, markedFlags s, fun s' h => ?_⟩
        rw [h.endOfChunk_eq hm]
        exact takeJump_of_outside (h.top.trans htop) (h.chunkCount_eq ▸ Nat.not_lt.mp hx)
  · refine .inl ⟨.outOfRange, s.cur, s.vis, fun s' h => ?_⟩
    rw [endOfChunk_of_noChunk (by rwa [h.exempt, h.cur, h.chunkCount_eq]), h.cur, ← h.vis]
    rfl

/-- Settles O40: both steps do what their common view fixes. -/
theorem sequencerSeesOnlyTop : Obligations.SequencerSeesOnlyTop := by
  intro s s' t t' hrun hrun' h5 hparams hpm hvis hcur hslot htop h h'
  have alike : SeenAlike s s' := ⟨by simp only [MarkExempt, hslot, hparams], hpm, hvis, hcur, hslot, htop⟩
  rw [step_eq_endOfChunk hrun h5] at h
  rw [step_eq_endOfChunk hrun' (hslot ▸ h5)] at h'
  rcases endOfChunk_fixed_by_view s with ⟨c, info, flags, hall⟩ | ⟨x, b, flags, hall⟩
  · rw [hall s (.refl s)] at h
    rw [hall s' alike] at h'
    cases h
    cases h'
    exact ⟨hcur, hslot, rfl, rfl, fun hr => by simp at hr, fun _ => faultRecord_congr hpm hcur hslot c info⟩
  · rw [hall s (.refl s)] at h
    rw [hall s' alike] at h'
    cases h
    cases h'
    exact ⟨rfl, rfl, rfl, hrun'.trans hrun.symm, fun _ => rfl, fun hf => by simp [enterChunk, hrun] at hf⟩

/-- Away from slot 7 the end-of-chunk step reads no parameter. -/
theorem endOfChunk_withParams_of_slot {s t : State} (hslot : s.slot ≠ 7) (p : Params) (h : endOfChunk s = .next t) :
    endOfChunk (s.withParams p) = .next (t.withParams p) := by
  have alike : SeenAlike s (s.withParams p) :=
    ⟨⟨fun ⟨h7, _⟩ => absurd h7 hslot, fun ⟨h7, _⟩ => absurd h7 hslot⟩, rfl, rfl, rfl, rfl, rfl⟩
  rcases endOfChunk_fixed_by_view s with ⟨c, info, flags, hall⟩ | ⟨x, b, flags, hall⟩ <;>
    rw [hall s (.refl s)] at h <;> cases h <;> exact hall _ alike

/-- Away from slot 7 a step reads neither MARK_ON_RETURN nor FAULT_EXIT. -/
theorem step_withParams_of_slot {s t : State} {p : Params} (hslot : s.slot ≠ 7) (hw : p.width = s.params.width)
    (hr : p.rotEmpty = s.params.rotEmpty) (hf : p.fMode = s.params.fMode) (hc : p.stackCap = s.params.stackCap)
    (h : step s = .next t) : step (s.withParams p) = .next (t.withParams p) := by
  obtain ⟨hrun, ⟨h5, he⟩ | ⟨-, i, hfetch, he⟩ | ⟨h4, hfetch, rfl⟩⟩ := step_next_cases h
  · have hstep : step (s.withParams p) = endOfChunk (s.withParams p) := step_eq_endOfChunk hrun h5
    exact hstep.trans (endOfChunk_withParams_of_slot hslot p he)
  · have hstep : step (s.withParams p) = exec i (s.withParams p) := step_eq_exec hrun hfetch
    have hcap : atCap (s.withParams p) = atCap s := by simp [atCap, hc]
    exact hstep.trans (exec_withParams hw hr (fun _ => hf) (fun _ => hcap) he)
  · exact step_eq_storeOutOfRange (s := s.withParams p) hrun h4 hfetch

/-- Settles O41. -/
theorem markOnReturnMattersOnlyAfterRet : Obligations.MarkOnReturnMattersOnlyAfterRet := by
  intro b s t hslot h
  rw [(step_continues h).params]
  exact step_withParams_of_slot hslot rfl rfl rfl rfl h

/-! ## The ways out of RUNNING -/

/-- R166: the fault causes a RUNNING block's step can record, whatever the state. -/
abbrev StepCause (c : FCode) : Prop :=
  c = .stackUnderflow ∨ c = .invalidJump ∨ c = .allocationFailure ∨ c = .outOfRange ∨ c = .refused

/-- R94: how a step from RUNNING leaves STATUS and CUR. -/
inductive StepEnd (s t : State) : Prop where
  | halts : fetch s = some .halt → t.status = .halted → t.cur = s.cur → StepEnd s t
  | faults : fetch s ≠ some .halt → t.status = .faulted → StepCause t.frec.fcode → t.cur = s.cur → StepEnd s t
  | goesOn : fetch s ≠ some .halt → t.status = .running → t.cur = s.cur → StepEnd s t
  | jumps : 5 ≤ s.slot.toNat → t.status = .running → s.stk.head? = some t.cur → StepEnd s t

theorem fetch_ne_of_endOfChunk {s : State} (h5 : 5 ≤ s.slot.toNat) (i : Instr) : fetch s ≠ some i := by
  intro hf
  have := slot_le_of_fetch hf
  omega

theorem endOfChunk_stepEnd {s t : State} (hrun : s.status = .running) (h5 : 5 ≤ s.slot.toNat)
    (h : endOfChunk s = .next t) : StepEnd s t := by
  rcases endOfChunk_next_cases h with ⟨c, info, flags, rfl, -, hc⟩ | ⟨x, rest, b, hs, -, -, rfl⟩
  · have cause : StepCause c := by
      rcases hc with ⟨hc, -⟩ | ⟨hc, -⟩ | ⟨hc, -⟩ <;> simp [StepCause, hc]
    exact .faults (fetch_ne_of_endOfChunk h5 _) rfl cause rfl
  · refine .jumps h5 hrun ?_
    show s.stk.head? = some x
    simp [hs]

theorem exec_stepEnd {i : Instr} {s t : State} (hrun : s.status = .running) (hf : fetch s = some i)
    (h : exec i s = .next t) : StepEnd s t := by
  by_cases hi : i = .halt
  · subst hi
    cases h
    exact .halts hf rfl rfl
  · have hne : fetch s ≠ some .halt := fun hh => hi (Option.some.inj (hf.symm.trans hh))
    cases exec_outcome h with
    | underflow => exact .faults hne rfl (by simp [StepCause]) rfl
    | full => exact .faults hne rfl (by simp [StepCause]) rfl
    | refused => exact .faults hne rfl (by simp [StepCause]) rfl
    | held => exact .goesOn hne hrun rfl
    | halted hhalt => exact absurd hhalt hi
    | completed => exact .goesOn hne hrun rfl

theorem step_stepEnd {s t : State} (h : step s = .next t) : StepEnd s t := by
  obtain ⟨hrun, ⟨h5, he⟩ | ⟨-, i, hf, he⟩ | ⟨-, hf, rfl⟩⟩ := step_next_cases h
  · exact endOfChunk_stepEnd hrun h5 he
  · exact exec_stepEnd hrun hf he
  · exact .faults (by simp [hf]) rfl (by simp [StepCause]) rfl

/-- Settles O52, by the four ways a step from RUNNING ends. -/
theorem runningEndsOnlyByHaltOrFault : Obligations.RunningEndsOnlyByHaltOrFault := by
  intro s t _ h
  cases step_stepEnd h with
  | halts hf ht hcur => simp [hf, ht, hcur, slot_le_of_fetch hf]
  | faults hf ht hc hcur => exact ⟨by simp [ht], by simp [hf, ht], fun _ => hc, absurd hcur, fun _ => hcur⟩
  | goesOn hf ht hcur => simp [hf, ht, hcur]
  | jumps h5 ht htop =>
    have hne := fetch_ne_of_endOfChunk h5 .halt
    exact ⟨by simp [ht], by simp [hne, ht], by simp [ht], fun _ => ⟨h5, htop⟩, fun h4 => by omega⟩

/-! ## The sequencer in a reachable state -/

/-- R96: under the invariant the record is never of an access outside the Store. -/
theorem State.Inv.fcode_ne_outOfRange {s : State} (h : s.Inv) : s.frec.fcode ≠ .outOfRange := by
  cases hs : s.status with
  | idle => rcases h.idleCause hs with hc | hc <;> simp [hc]
  | running => simp [h.noRecord (.inl hs), FaultRecord.zero]
  | halted => simp [h.noRecord (.inr hs), FaultRecord.zero]
  | faulted => rcases h.faultCause hs with hc | hc | hc | hc <;> simp [hc]

/-- Settles O57: a reachable state meets the invariant, under which every fetch of a RUNNING block is answered. -/
theorem outOfRangeIsNeverRaised : Obligations.OutOfRangeIsNeverRaised := by
  intro s hs
  have hinv := reachableStatesMeetInvariant s hs
  refine ⟨hinv.fcode_ne_outOfRange, fun hrun h4 => ?_⟩
  obtain ⟨i, hf⟩ := Option.ne_none_iff_exists'.mp (hinv.fetch_ne_none hrun h4)
  exact ⟨i, hf, step_eq_exec hrun hf⟩

end Sys2Proof.Machine

/-! The I/O family: which opcode touches which channel, READ at capacity, and WRITE. -/

namespace Sys2Proof.Machine

/-- Settles O16: READ leaves the output, WRITE the input, and every other opcode both. -/
theorem onlyReadAndWriteTouchChannels : Obligations.OnlyReadAndWriteTouchChannels := by
  intro i s t h
  by_cases hr : i = .read
  · subst hr
    obtain ⟨-, hout⟩ := exec_read_channels h
    exact ⟨absurd rfl, fun _ => hout⟩
  · by_cases hw : i = .write
    · subst hw
      obtain ⟨hin, -⟩ := exec_write_channels h
      exact ⟨fun _ => hin, absurd rfl⟩
    · obtain ⟨hin, hout⟩ := exec_keepsChannels hr hw s t h
      exact ⟨fun _ => hin, fun _ => hout⟩

/-- R101, R173: READ with an answer ready and no room for it faults before it reads. -/
theorem exec_read_of_full {s : State} (hr : s.inReady = true) (hfull : s.params.stackCap = some s.stk.length) :
    exec .read s = .next (raise .allocationFailure 0 s) := by
  have hcap : atCap s = true := atCap_iff.mpr hfull
  simp [exec, execRead, hr, hcap, raised]

/-- Settles O13: the fault is raised in the state as it was. -/
theorem readAtCapacityConsumesNothing : Obligations.ReadAtCapacityConsumesNothing := by
  intro s hr hfull
  exact ⟨exec_read_of_full hr hfull, raise_inq _ _ s, raise_stk _ _ s⟩

/-- R102: WRITE with a value to pop emits its low byte. -/
theorem exec_write_cons {s : State} {v : Nat} {rest : List Nat} (h : s.stk = v :: rest) :
    exec .write s = finish (outWrite s (lowByte v)) rest := by
  simp [exec, execWrite, h]

/-- R102: WRITE with nothing to pop. -/
theorem exec_write_nil {s : State} (h : s.stk = []) : exec .write s = .next (raise .stackUnderflow 1 s) := by
  simp [exec, execWrite, h, raised]

/-- Settles O15: on a stack with a top the next state is `finish`'s, field by field. -/
theorem writeEmitsLowByte : Obligations.WriteEmitsLowByte := by
  intro s
  refine ⟨fun v rest hs => ?_, exec_write_nil, rfl⟩
  rw [exec_write_cons hs]
  rfl

end Sys2Proof.Machine

/-! The stack family: the stack opcodes branch by branch, ROTB repeated, the orders SHUF leaves, and the pairs of opcodes that
restore the stack. -/

namespace Sys2Proof.Machine

/-! ## ROTB, applied many times -/

/-- R116: ROTB with a value to move. -/
theorem exec_rotb_cons {s : State} {a : Nat} {rest : List Nat} (h : s.stk = a :: rest) :
    exec .rotb s = finish s (rest ++ [a]) := by simp [exec, execRotb, h]

/-- R117: ROTB with nothing to move, where that is a fault. -/
theorem exec_rotb_nil_of_fault {s : State} (h : s.stk = []) (hmode : s.params.rotEmpty = .fault) :
    exec .rotb s = .next (raise .stackUnderflow 1 s) := by simp [exec, execRotb, h, hmode, raised]

/-- R117: ROTB with nothing to move, where that is no fault. -/
theorem exec_rotb_nil_of_nop {s : State} (h : s.stk = []) (hmode : s.params.rotEmpty = .nop) :
    exec .rotb s = finish s s.stk := by simp [exec, execRotb, h, hmode]

theorem execTimes_succ_of_next {i : Instr} {s t : State} (n : Nat) (h : exec i s = .next t) :
    execTimes i (n + 1) s = execTimes i n t := by simp [execTimes, h]

/-- R118: ROTB is a rotation by one, so `n` of them are a rotation by `n`; SLOT moves modulo 8 (log entry 19). -/
theorem execTimes_rotb {s : State} (hs : s.stk ≠ []) (n : Nat) :
    execTimes .rotb n s = .next { s with stk := s.stk.rotate n, slot := s.slot + BitVec.ofNat 3 n } := by
  induction n generalizing s with
  | zero => simp [execTimes]
  | succ n ih =>
    obtain ⟨a, rest, hcons⟩ := List.exists_cons_of_ne_nil hs
    have hrot : s.stk.rotate (n + 1) = (rest ++ [a]).rotate n := by rw [hcons, List.rotate_cons_succ]
    have hslot : s.slot + BitVec.ofNat 3 (n + 1) = s.slot + 1 + BitVec.ofNat 3 n := by
      rw [BitVec.ofNat_add, BitVec.add_comm (BitVec.ofNat 3 n), BitVec.add_assoc]
      rfl
    rw [execTimes_succ_of_next n (exec_rotb_cons hcons), ih (by simp), hrot, hslot]
    rfl

/-- Settles O21: a rotation by the length is none. -/
theorem rotbDepthTimesRestoresStack : Obligations.RotbDepthTimesRestoresStack := by
  intro s hs
  rw [execTimes_rotb hs, List.rotate_length]

/-- Settles O20. -/
theorem rotbMovesTopToBottom : Obligations.RotbMovesTopToBottom := fun _ =>
  ⟨fun _ _ => exec_rotb_cons, exec_rotb_nil_of_fault, exec_rotb_nil_of_nop⟩

/-! ## SHUF -/

/-- R119: with any choices SHUF leaves the stack in the order they pick, and touches SLOT and the count of draws besides. -/
theorem shuffleWith_eq (pick : Nat → Nat) (s : State) :
    shuffleWith pick s =
      .next { s with stk := pickAll pick s.stk.length s.stk, slot := s.slot + 1, draws := s.draws + 1 } := by
  rw [← permute_drawPerm]
  rfl

/-- Settles O22: the choices only rearrange. -/
theorem shufPermutesStack : Obligations.ShufPermutesStack := fun s =>
  ⟨_, pickAll_perm (Config.freePick s.draws) s.stk.length s.stk, shuffleWith_eq _ s⟩

/-- Settles O23: every rearrangement has its choices. -/
theorem shufAdmitsEveryOrder : Obligations.ShufAdmitsEveryOrder := by
  refine ⟨fun _ => rfl, fun s stk' hperm => ?_⟩
  obtain ⟨pick, hpick⟩ := exists_pickAll s.stk stk' hperm
  exact ⟨pick, by rw [shuffleWith_eq, hpick]⟩

/-! ## DROP, DUP and SWAP -/

/-- R110: DROP with a value to pop. -/
theorem exec_drop_cons {s : State} {a : Nat} {rest : List Nat} (h : s.stk = a :: rest) :
    exec .drop s = finish s rest := by simp [exec, execDrop, h]

/-- R110: DROP with nothing to pop. -/
theorem exec_drop_nil {s : State} (h : s.stk = []) : exec .drop s = .next (raise .stackUnderflow 1 s) := by
  simp [exec, execDrop, h, raised]

/-- Settles O17. -/
theorem dropRemovesTop : Obligations.DropRemovesTop := fun _ =>
  ⟨fun _ _ => exec_drop_cons, exec_drop_nil, rfl⟩

/-- R27: a push with room for it. -/
theorem pushFinish_of_room {s : State} (hroom : s.params.stackCap ≠ some s.stk.length) (v : Nat) :
    pushFinish s v = finish s (v :: s.stk) := if_neg (mt atCap_iff.mp hroom)

/-- R27: a push at capacity. -/
theorem pushFinish_of_full {s : State} (hfull : s.params.stackCap = some s.stk.length) (v : Nat) :
    pushFinish s v = raised .allocationFailure 0 s := if_pos (atCap_iff.mpr hfull)

/-- R112: DUP with a value to copy pushes it, if there is room. -/
theorem exec_dup_cons {s : State} {a : Nat} {rest : List Nat} (h : s.stk = a :: rest) :
    exec .dup s = pushFinish s a := by simp [exec, execDup, h]

/-- R112, R173: DUP with nothing to copy, whatever the capacity. -/
theorem exec_dup_nil {s : State} (h : s.stk = []) : exec .dup s = .next (raise .stackUnderflow 1 s) := by
  simp [exec, execDup, h, raised]

/-- Settles O18. -/
theorem dupCopiesTop : Obligations.DupCopiesTop := by
  intro s
  refine ⟨fun a rest hs hroom => ?_, fun hne hfull => ?_, exec_dup_nil⟩
  · rw [exec_dup_cons hs, pushFinish_of_room hroom, hs]
    rfl
  · obtain ⟨a, rest, hs⟩ := List.exists_cons_of_ne_nil hne
    rw [exec_dup_cons hs, pushFinish_of_full hfull]
    rfl

/-- R114: SWAP with two values to exchange. -/
theorem exec_swap_cons {s : State} {a b : Nat} {rest : List Nat} (h : s.stk = a :: b :: rest) :
    exec .swap s = finish s (b :: a :: rest) := by simp [exec, execSwap, h]

/-- R114: SWAP below depth 2. -/
theorem exec_swap_of_short {s : State} (h : s.stk.length < 2) : exec .swap s = .next (raise .stackUnderflow 2 s) := by
  rcases hs : s.stk with _ | ⟨a, _ | ⟨b, rest⟩⟩
  · simp [exec, execSwap, hs, raised]
  · simp [exec, execSwap, hs, raised]
  · simp [hs] at h

/-- Settles O19. -/
theorem swapExchangesTopTwo : Obligations.SwapExchangesTopTwo := fun _ =>
  ⟨fun _ _ _ => exec_swap_cons, exec_swap_of_short, rfl⟩

/-! ## Pairs that restore the stack -/

/-- Two opcode ends, of which the second puts back the stack, move SLOT by 2 and nothing else. -/
theorem advance_restored (s : State) (stk : List Nat) :
    advance ((advance (s.withStk stk)).withStk s.stk) = s.withSlot (s.slot + 2) := by
  have hslot : s.slot + 1 + 1 = s.slot + 2 := BitVec.add_assoc s.slot 1 1
  rw [← hslot]
  rfl

/-- DROP takes back the value that the opcode before it pushed. -/
theorem exec_drop_pushed (s : State) (v : Nat) :
    exec .drop (advance (s.withStk (v :: s.stk))) = .next (s.withSlot (s.slot + 2)) :=
  (exec_drop_cons rfl).trans (congrArg _ (advance_restored s _))

/-- WRITE takes back the value that the opcode before it pushed, and emits its low byte. -/
theorem exec_write_pushed (s : State) (v : Nat) :
    exec .write (advance (s.withStk (v :: s.stk))) = .next ((outWrite s (lowByte v)).withSlot (s.slot + 2)) :=
  (exec_write_cons rfl).trans (congrArg _ (advance_restored (outWrite s (lowByte v)) (v :: s.stk)))

/-- R113: DUP then DROP. -/
theorem dup_drop {s : State} (hne : s.stk ≠ []) (hroom : s.params.stackCap ≠ some s.stk.length) :
    ∃ t, exec .dup s = .next t ∧ exec .drop t = .next (s.withSlot (s.slot + 2)) := by
  obtain ⟨a, rest, hs⟩ := List.exists_cons_of_ne_nil hne
  exact ⟨_, (exec_dup_cons hs).trans (pushFinish_of_room hroom a), exec_drop_pushed s a⟩

/-- R115: SWAP twice. -/
theorem swap_swap {s : State} (h : 2 ≤ s.stk.length) :
    ∃ t, exec .swap s = .next t ∧ exec .swap t = .next (s.withSlot (s.slot + 2)) := by
  rcases hs : s.stk with _ | ⟨a, _ | ⟨b, rest⟩⟩
  · simp [hs] at h
  · simp [hs] at h
  · refine ⟨_, exec_swap_cons hs, (exec_swap_cons rfl).trans ?_⟩
    rw [← hs]
    exact congrArg _ (advance_restored s _)

/-- R121: READ then WRITE, and READ then DROP, for the answer `a` of the IN port, which leaves the state `u`. -/
theorem read_write_and_read_drop {s u : State} {a : InAnswer} (hr : s.inReady = true)
    (hroom : s.params.stackCap ≠ some s.stk.length) (hin : inRead s = (a, u)) (hstk : u.stk = s.stk) :
    ∃ t, exec .read s = .next t ∧
      exec .write t = .next ((outWrite u (lowByte (answerValue a))).withSlot (u.slot + 2)) ∧
      exec .drop t = .next (u.withSlot (u.slot + 2)) := by
  have hread : exec .read s = finish u (answerValue a :: u.stk) := by rw [exec_read_of_room hr hroom, hin, hstk]
  exact ⟨_, hread, exec_write_pushed u _, exec_drop_pushed u _⟩

/-- Settles O24, pair by pair; a byte read and written comes out as it was. -/
theorem inversePairsRestoreStack : Obligations.InversePairsRestoreStack := by
  intro s
  refine ⟨fun hne hroom => ?_, fun h2 => ?_, fun b rest hq hr hroom => ?_, fun hq hr hroom => ?_⟩
  · obtain ⟨t, hdup, hdrop⟩ := dup_drop hne hroom
    exact ⟨t, _, hdup, hdrop, rfl⟩
  · obtain ⟨t, hswap, hback⟩ := swap_swap h2
    exact ⟨t, _, hswap, hback, rfl⟩
  · have h := read_write_and_read_drop hr hroom (inRead_cons hq) rfl
    rw [answerValue, lowByte_zextByte] at h
    exact h
  · exact read_write_and_read_drop hr hroom (inRead_nil hq) rfl

end Sys2Proof.Machine


/-! The arithmetic family: a one-operand and a two-operand opcode step branch by branch, and the operator of each opcode. -/

namespace Sys2Proof.Machine

/-! ## The two shapes of an arithmetic step -/

theorem mapTop_cons (f : Nat → Nat) {s : State} {a : Nat} {rest : List Nat} (h : s.stk = a :: rest) :
    mapTop f s = finish s (f a :: rest) := by simp [mapTop, h]

theorem mapTop_nil (f : Nat → Nat) {s : State} (h : s.stk = []) : mapTop f s = raised .stackUnderflow 1 s := by
  simp [mapTop, h]

theorem combineTop_cons (f : Nat → Nat → Nat) {s : State} {a b : Nat} {rest : List Nat} (h : s.stk = a :: b :: rest) :
    combineTop f s = finish s (f a b :: rest) := by simp [combineTop, h]

theorem combineTop_of_short (f : Nat → Nat → Nat) {s : State} (h : s.stk.length < 2) :
    combineTop f s = raised .stackUnderflow 2 s := by
  rcases combineTop_cases f s with ⟨-, he⟩ | ⟨a, b, rest, hs, -⟩
  · exact he
  · simp [hs] at h

/-! ## INC, DEC, ADD and ABSD -/

theorem exec_inc (s : State) : exec .inc s = mapTop (fun a => addW s.params.width a 1) s := rfl

theorem exec_dec (s : State) : exec .dec s = mapTop (fun a => subSat a 1) s := rfl

theorem exec_add (s : State) : exec .add s = combineTop (fun a b => addW s.params.width b a) s := rfl

theorem exec_absd (s : State) : exec .absd s = combineTop absdiff s := rfl

/-- R132: the saturation at 0, said of 1 taken away. -/
theorem subSat_one (a : Nat) : subSat a 1 = if a = 0 then 0 else a - 1 := by
  cases a with
  | zero => rfl
  | succ n => simp [subSat]

/-- Settles O25. -/
theorem incAddsOneModuloWidth : Obligations.IncAddsOneModuloWidth := by
  intro s
  rw [exec_inc]
  exact ⟨fun _ _ => mapTop_cons _, mapTop_nil _⟩

/-- Settles O26: taking 1 away saturates at 0 only. -/
theorem decSaturatesAtZero : Obligations.DecSaturatesAtZero := by
  intro s
  rw [exec_dec]
  refine ⟨fun a rest hs => ?_, mapTop_nil _, rfl⟩
  rw [mapTop_cons _ hs, subSat_one]
  rfl

/-- Settles O27. -/
theorem addSumsTopTwoModuloWidth : Obligations.AddSumsTopTwoModuloWidth := by
  intro s
  rw [exec_add]
  exact ⟨fun _ _ _ => combineTop_cons _, combineTop_of_short _⟩

/-- Settles O28. -/
theorem absdIsExactDifference : Obligations.AbsdIsExactDifference := by
  intro s
  rw [exec_absd]
  exact ⟨fun _ _ _ => combineTop_cons _, combineTop_of_short _, rfl⟩

end Sys2Proof.Machine

/-! The control family: SKIPF, SKIPV, RET, HALT and F branch by branch, what a control opcode leaves alone and what it reads,
and the reach of F_MODE. -/

namespace Sys2Proof.Machine

/-! ## Each control opcode, branch by branch -/

theorem exec_skipf (s : State) : exec .skipf s = skipNextIf (!s.ev) s := rfl

theorem exec_skipv (s : State) : exec .skipv s = skipNextIf s.ev s := rfl

theorem exec_ret (s : State) : exec .ret s = .next (s.withSlot 7) := rfl

theorem exec_halt (s : State) : exec .halt s = .next (s.withStatus .halted) := rfl

/-- R155: opcode `F` under `F_MODE = NOP`. -/
theorem exec_nop_of_nop {s : State} (h : s.params.fMode = .nop) : exec .nop s = .next (advance s) := by
  simp [exec, execNop, h]

/-- R71: opcode `F` under `F_MODE = REFUSE`. -/
theorem exec_nop_of_refuse {s : State} (h : s.params.fMode = .refuse) :
    exec .nop s = .next (raise .refused 0xF s) := by
  simp [exec, execNop, h, raised]

/-- R146, R152: a skip passes over the next slot. -/
theorem skipNextIf_of_true {b : Bool} {s : State} (h : b = true) : skipNextIf b s = .next (s.withSlot (s.slot + 2)) := by
  rw [h]
  rfl

/-- R146, R152: without the skip SLOT takes its default advance. -/
theorem skipNextIf_of_false {b : Bool} {s : State} (h : b = false) :
    skipNextIf b s = .next (s.withSlot (s.slot + 1)) := by
  rw [h]
  rfl

/-- Settles O29: SKIPF skips on the flag negated. -/
theorem skipfSkipsOnFirstVisit : Obligations.SkipfSkipsOnFirstVisit := by
  refine ⟨fun s hev => ?_, fun s hev => ?_, rfl⟩
  · exact (exec_skipf s).trans (skipNextIf_of_true (by simp [hev]))
  · exact (exec_skipf s).trans (skipNextIf_of_false (by simp [hev]))

/-- Settles O30: SKIPV skips on the flag itself. -/
theorem skipvSkipsOnRevisit : Obligations.SkipvSkipsOnRevisit :=
  ⟨fun s hev => (exec_skipv s).trans (skipNextIf_of_true hev),
    fun s hev => (exec_skipv s).trans (skipNextIf_of_false hev), rfl⟩

/-- Settles O31. -/
theorem retEndsChunkEarly : Obligations.RetEndsChunkEarly := exec_ret

/-- Settles O32: a halted block is not RUNNING, so no step of it is enabled. -/
theorem haltEndsRunWithSuccess : Obligations.HaltEndsRunWithSuccess := by
  intro s
  have stopped : (s.withStatus .halted).status ≠ .running := by simp
  exact ⟨exec_halt s, rfl, step_of_not_running stopped, rfl⟩

/-- Settles O33. -/
theorem fIsNopOrRefused : Obligations.FIsNopOrRefused := fun _ => ⟨exec_nop_of_nop, exec_nop_of_refuse⟩

/-! ## What a control opcode leaves alone and what it reads -/

/-- The opcodes of spec/44_control.md. -/
abbrev ControlOpcode (i : Instr) : Prop := i = .skipf ∨ i = .skipv ∨ i = .ret ∨ i = .halt ∨ i = .nop

/-- Everything a control opcode can do: write SLOT and STATUS, or raise Refused. -/
theorem exec_control_cases {i : Instr} {s t : State} (hi : ControlOpcode i) (h : exec i s = .next t) :
    (∃ slot status, t = { s with slot := slot, status := status }) ∨ t = raise .refused 0xF s := by
  rcases hi with rfl | rfl | rfl | rfl | rfl
  · cases h
    exact .inl ⟨_, s.status, rfl⟩
  · cases h
    exact .inl ⟨_, s.status, rfl⟩
  · cases h
    exact .inl ⟨7, s.status, rfl⟩
  · cases h
    exact .inl ⟨s.slot, .halted, rfl⟩
  · cases hm : s.params.fMode with
    | nop =>
      rw [exec_nop_of_nop hm] at h
      cases h
      exact .inl ⟨_, s.status, rfl⟩
    | refuse =>
      rw [exec_nop_of_refuse hm] at h
      cases h
      exact .inr rfl

/-- R145: no control opcode touches the stack, the channels or VIS, and none raises StackUnderflow. -/
theorem exec_control_frame {i : Instr} {s t : State} (hi : ControlOpcode i) (h : exec i s = .next t) :
    (t.stk = s.stk ∧ t.inq = s.inq ∧ t.outq = s.outq ∧ t.vis = s.vis) ∧
      (t.frec = s.frec ∨ t.frec.fcode ≠ .stackUnderflow) := by
  rcases exec_control_cases hi h with ⟨slot, status, rfl⟩ | rfl
  · exact ⟨⟨rfl, rfl, rfl, rfl⟩, .inl rfl⟩
  · exact ⟨⟨rfl, rfl, rfl, rfl⟩, .inr (by simp)⟩

/-- What a skip leaves in SLOT and STATUS is fixed by these two. -/
theorem skipNextIf_congr {b : Bool} {s s' t : State} (hslot : s'.slot = s.slot) (hstatus : s'.status = s.status)
    (h : skipNextIf b s = .next t) : ∃ t', skipNextIf b s' = .next t' ∧ t'.slot = t.slot ∧ t'.status = t.status := by
  cases h
  exact ⟨_, rfl, congrArg (· + _) hslot, hstatus⟩

/-- R145: what a control opcode does to SLOT and STATUS is fixed by the two, with EV for the skips and F_MODE for `F`. -/
theorem exec_control_congr {i : Instr} {s s' t : State} (hi : ControlOpcode i)
    (hev : i = .skipf ∨ i = .skipv → s'.ev = s.ev) (hmode : i = .nop → s'.params.fMode = s.params.fMode)
    (hslot : s'.slot = s.slot) (hstatus : s'.status = s.status) (h : exec i s = .next t) :
    ∃ t', exec i s' = .next t' ∧ t'.slot = t.slot ∧ t'.status = t.status := by
  rcases hi with rfl | rfl | rfl | rfl | rfl
  · rw [exec_skipf, hev (.inl rfl)]
    exact skipNextIf_congr hslot hstatus h
  · rw [exec_skipv, hev (.inr rfl)]
    exact skipNextIf_congr hslot hstatus h
  · cases h
    exact ⟨_, exec_ret s', rfl, hstatus⟩
  · cases h
    exact ⟨_, exec_halt s', hslot, rfl⟩
  · have hm' := hmode rfl
    cases hm : s.params.fMode with
    | nop =>
      rw [exec_nop_of_nop hm] at h
      cases h
      exact ⟨_, exec_nop_of_nop (hm'.trans hm), congrArg (· + 1) hslot, hstatus⟩
    | refuse =>
      rw [exec_nop_of_refuse hm] at h
      cases h
      exact ⟨_, exec_nop_of_refuse (hm'.trans hm), hslot, rfl⟩

/-- Settles O34: the frame and the comparison of two states, for the next state every opcode answers. -/
theorem controlOpcodesReadOnlySnapshot : Obligations.ControlOpcodesReadOnlySnapshot := by
  intro i hi s
  obtain ⟨t, ht⟩ := exec_isNext i s
  obtain ⟨hkept, hfrec⟩ := exec_control_frame hi ht
  exact ⟨t, ht, hkept, hfrec, fun s' hev hmode hslot hstatus => exec_control_congr hi hev hmode hslot hstatus ht⟩

/-! ## The reach of F_MODE -/

/-- Settles O60: F_MODE is read by opcode `F` only, and an opcode keeps the parameters. -/
theorem fModeMattersOnlyToF : Obligations.FModeMattersOnlyToF := by
  intro i m s t hi h
  rw [(exec_continues h).params]
  exact exec_withParams rfl rfl (fun hnop => absurd hnop hi) (fun _ => rfl) h

end Sys2Proof.Machine

/-! The exceptions family: what a fault writes, when it is raised by a step and when by a load, and the invariant over the
host's moves. -/

namespace Sys2Proof.Machine

/-! ## Faults raised by a step -/

/-- R175: an opcode that faults does nothing else. -/
theorem exec_faulted {i : Instr} {s t : State} (hrun : s.status = .running) (h : exec i s = .next t)
    (ht : t.status = .faulted) : ∃ c info, t = raise c info s := by
  rcases exec_next_cases h with ⟨c, info, rfl, -⟩ | ⟨-, -, rfl⟩ | ⟨-, rfl⟩ | ⟨stk, slot, inq, outq, draws, -, rfl⟩
  · exact ⟨c, info, rfl⟩
  · simp [hrun] at ht
  · simp at ht
  · simp [opcodeDone, hrun] at ht

/-- R88, R175: an end-of-chunk step that faults has at most marked its chunk before. -/
theorem endOfChunk_faulted {s t : State} (hrun : s.status = .running) (h : endOfChunk s = .next t)
    (ht : t.status = .faulted) :
    ∃ c info flags, t = raise c info (s.withVis flags) ∧ (flags = s.vis ∨ flags = s.vis.set s.cur true) := by
  rcases endOfChunk_next_cases h with ⟨c, info, flags, rfl, hflags, -⟩ | ⟨x, rest, b, -, -, -, rfl⟩
  · exact ⟨c, info, flags, rfl, hflags⟩
  · simp [enterChunk, hrun] at ht

/-- R175: a step that faults raises the fault in the state before, but for the end-of-chunk mark. -/
theorem step_faulted {s t : State} (h : step s = .next t) (ht : t.status = .faulted) :
    ∃ c info flags, t = raise c info (s.withVis flags) ∧
      (flags = s.vis ∨ 5 ≤ s.slot.toNat ∧ flags = s.vis.set s.cur true) := by
  obtain ⟨hrun, ⟨h5, he⟩ | ⟨-, i, -, he⟩ | ⟨-, -, rfl⟩⟩ := step_next_cases h
  · obtain ⟨c, info, flags, rfl, hflags⟩ := endOfChunk_faulted hrun he ht
    exact ⟨c, info, flags, rfl, hflags.imp_right (⟨h5, ·⟩)⟩
  · obtain ⟨c, info, rfl⟩ := exec_faulted hrun he ht
    exact ⟨c, info, s.vis, rfl, .inl rfl⟩
  · exact ⟨_, _, s.vis, rfl, .inl rfl⟩

/-- Settles O45: the fault is raised in the state before, whose flags differ only by the end-of-chunk mark. -/
theorem faultsArePrecise : Obligations.FaultsArePrecise := by
  intro s t _ h ht
  obtain ⟨c, info, flags, rfl, hflags⟩ := step_faulted h ht
  refine ⟨rfl, rfl, rfl, fun h4 => ?_, fun _ => ?_⟩
  · exact hflags.resolve_right fun ⟨h5, _⟩ => by omega
  · exact hflags.imp_right And.right

/-! ## The host's moves -/

/-- Settles O55, move by move. -/
theorem hostMovesKeepInvariant : Obligations.HostMovesKeepInvariant :=
  fun _ h => ⟨h.load, h.applyReset, h.withInReady⟩

/-! ## Loads that fail -/

/-- R167: an unreadable file and a rejected text, whether or not there is room for it, are refused alike. -/
theorem load_of_rejected {offer : LoadOffer}
    (h : offer = .unreadable ∨ ∃ text e, (offer = .text text ∨ offer = .noRoom text) ∧ parseText text = .error e)
    (input : List Byte) (s : State) : load offer input s = refuseLoad s := by
  rcases h with rfl | ⟨text, e, rfl | rfl, hp⟩
  · rfl
  · simp [load, hp]
  · simp [load, hp]

/-- R170, R194: an accepted text with no room for its Store. -/
theorem load_noRoom_of_accepted {text : List Char} {codes : List Code} (h : parseText text = .ok codes)
    (input : List Byte) (s : State) : load (.noRoom text) input s = refuseStore s := by
  simp [load, h]

theorem refuseLoad_idle {s : State} (h : s.status = .idle) : refuseLoad s = s.withFrec (faultRecord .loadError 0 s) :=
  failLoad_idle h _

theorem refuseStore_idle {s : State} (h : s.status = .idle) : refuseStore s = raise .allocationFailure 0 s :=
  failLoad_idle h _

/-- R188: the host sees a failure at an IDLE block that refused a text. -/
theorem exitStatus_loadError {s : State} (hidle : s.status = .idle) (hcode : s.frec.fcode = .loadError) :
    exitStatus s = some s.params.faultExit := by
  simp [exitStatus, hidle, hcode]

/-- Settles O5: the refusal writes the record of an IDLE block, and nothing in any other status. -/
theorem loadErrorLeavesBlockIdle : Obligations.LoadErrorLeavesBlockIdle := by
  intro offer input s hrej
  rw [load_of_rejected hrej]
  refine ⟨fun hidle => ?_, fun hother => failLoad_other hother _⟩
  rw [refuseLoad_idle hidle]
  have idle : (s.withFrec (faultRecord .loadError 0 s)).status = .idle := hidle
  refine ⟨idle, rfl, rfl, rfl, exitStatus_loadError idle rfl, ?_⟩
  rw [step_of_not_running (by simp [hidle]), idle]

/-- Settles O6: the fault is raised in an IDLE block, and nothing is done in any other status. -/
theorem loadWithoutRoomIsAllocationFailure : Obligations.LoadWithoutRoomIsAllocationFailure := by
  intro text codes input s haccepted
  rw [load_noRoom_of_accepted haccepted]
  refine ⟨fun hidle => ?_, fun hother => failLoad_other hother _⟩
  rw [refuseStore_idle hidle]
  exact ⟨rfl, rfl, rfl⟩

/-! ## What raising a fault writes -/

/-- R174: a fault at an opcode of the program records that opcode's code. -/
theorem raise_opcode {s : State} {op : Code} (h : pmRead s s.cur s.slot.toNat = some op) (c : FCode) (info : Nat) :
    raise c info s = { s with status := .faulted, frec := ⟨c, s.cur, s.slot, op, info⟩ } := by
  rw [raise, faultRecord, faultingOp_opcode h]
  rfl

/-- Settles O42: the two places a step can raise a fault at, an opcode of the program and the end of a chunk. -/
theorem raiseWritesStatusAndRecord : Obligations.RaiseWritesStatusAndRecord := by
  refine fun c info s => ⟨fun op h4 hcur hop => ?_, fun h5 => raise_endOfChunk h5 c info⟩
  exact raise_opcode (pmRead_eq_some.mpr ⟨hcur, h4, hop⟩) c info

end Sys2Proof.Machine

/-! The reset family: the reset of R190, the block at power-up, and the invariant where every run begins. -/

namespace Sys2Proof.Machine

/-- Settles O7, by the two branches of the reset: a program in the Store, and none. -/
theorem resetEntersChunkZero : Obligations.ResetEntersChunkZero := by
  intro input s
  constructor
  · intro hprogram
    exact applyReset_program hprogram input
  · intro hnone
    exact applyReset_noProgram (Nat.not_lt_of_le hnone.le) input

/-- R192: no step is enabled at power-up, because the block is not RUNNING. -/
theorem step_powerUp (p : Params) : step (State.powerUp p) = .fault (.notRunning .idle) :=
  step_of_not_running (s := State.powerUp p) (by simp [State.powerUp])

/-- Settles O8: power-up gives each item its reset value, and an IDLE block takes no step. -/
theorem powerUpIsIdle : Obligations.PowerUpIsIdle :=
  fun p => ⟨rfl, rfl, rfl, rfl, rfl, rfl, rfl, rfl, rfl, step_powerUp p⟩

/-- R7: the default parameters are legal. -/
theorem wf_default : Params.default.wf = true := by decide

/-- Settles O53: the reset state is power-up with the default parameters, which are legal. -/
theorem resetMeetsInvariant : Obligations.ResetMeetsInvariant :=
  ⟨inv_powerUp wf_default, fun _ legal => inv_powerUp legal⟩

end Sys2Proof.Machine
